-- ==== Sys2Proof/Word.lean ====
section
/-! DEFINITION. The word: the value of one memory cell, of the input latch, of an output entry and of an operand.

A word is a mathematical integer, `Int` (R6: "Every value the machine holds is a signed integer"). Which integers are words of
a given machine is the range WORD below; that every value the machine holds lies in it is an invariant (Safety.lean), not part
of the type, because the width is a parameter that may be unbounded (R5). DEDUCED (log 2). -/

namespace Sys2Proof

/-- The parameter `W` (R5): a width in bits, two's complement, or ∞ (unbounded mathematical integers). -/
inductive WordWidth where
  | bits (w : Nat)
  | unbounded
deriving DecidableEq, Repr

/-- `fits(v)` (R6): v lies in WORD = [−2^(W−1), 2^(W−1) − 1]; every integer when W = ∞. -/
def WordWidth.fits : WordWidth → Int → Bool
  | .bits w, v => decide (-((2 ^ (w - 1) : Nat) : Int) ≤ v ∧ v ≤ ((2 ^ (w - 1) : Nat) : Int) - 1)
  | .unbounded, _ => true

end Sys2Proof
end

