-- ==== Sys2Proof/Config.lean ====
section
/-! DEFINITION. The implementation parameters of R5: the widths W allowed, OVERFLOW, DECODE_PRIORITY, and the limit on N. -/

namespace Sys2Proof

/-- The widths R5 calls well defined: "32, 64, ∞ (any W ≥ 8 is well defined)". -/
def WordWidth.allowed : WordWidth → Bool
  | .bits w => decide (8 ≤ w)
  | .unbounded => true

/-- R5, R17: the memory lengths a width admits, N ≤ 2^(W−1) − 4 for finite W and every N for W = ∞. -/
def WordWidth.admitsLength : WordWidth → Nat → Bool
  | .bits w, n => decide (n + 4 ≤ 2 ^ (w - 1))
  | .unbounded, _ => true

/-- The parameter `OVERFLOW` (R5, R84). -/
inductive OverflowPolicy where
  | fault
  | wrap
deriving DecidableEq, Repr

/-- The parameter `DECODE_PRIORITY` (R5, R58). -/
inductive DecodePriority where
  | modeFirst
  | opcodeFirst
deriving DecidableEq, Repr

/-- The parameters the model takes as arguments (R5). `N` is not here: it is the length of the memory (R15). DEDUCED
(log 1): the machine's state carries the record, and no step writes it. -/
structure Config where
  width    : WordWidth
  overflow : OverflowPolicy
  priority : DecodePriority
deriving DecidableEq, Repr

/-- The spec's defaults (R5): W = 64, OVERFLOW = Fault, DECODE_PRIORITY = ModeFirst. -/
def Config.specDefault : Config :=
  { width := .bits 64, overflow := .fault, priority := .modeFirst }

end Sys2Proof
end

