-- ==== Sys2Proof/Syntax.lean ====
section
/-! DEFINITION. The instructions, their addressing modes, the failure kinds, and the assembly syntax, as types. -/

namespace Sys2Proof

/-- An addressing mode (R54): mode digit 0 is Position, 1 is Immediate. -/
inductive Mode where
  | position
  | immediate
deriving DecidableEq, Repr

/-- The mode's digit (R54). -/
def Mode.digit : Mode → Int
  | .position => 0
  | .immediate => 1

/-- What an instruction word holds above its opcode (R47): the three mode digits, and the quotient of weight 10^5 that
decoding ignores (R51). Every instruction has all of them; the modes of parameters it does not have, and of its
destination, are checked and unused (R55, R56). The quotient is kept so that decoding loses nothing of the word; no
meaning reads it. DESIGN CHOICE (log 10). -/
structure Fields where
  m1   : Mode
  m2   : Mode
  m3   : Mode
  high : Nat
deriving DecidableEq, Repr

/-- The decoded instruction: one constructor per row of the opcode table (R60). Parameter words are not part of it: the
body fetches them (R52, R70). -/
inductive Instr where
  /-- ADD, opcode 1 (R81). -/
  | add (f : Fields)
  /-- MULT, opcode 2 (R83). -/
  | mult (f : Fields)
  /-- INPUT, opcode 3 (R89). -/
  | input (f : Fields)
  /-- OUTPUT, opcode 4 (R91). -/
  | output (f : Fields)
  /-- HALT, opcode 99 (R94). -/
  | halt (f : Fields)
deriving DecidableEq, Repr

/-- The instruction's fields above the opcode. -/
def Instr.fields : Instr → Fields
  | .add f => f
  | .mult f => f
  | .input f => f
  | .output f => f
  | .halt f => f

/-- The instruction's opcode (R2, R60). -/
def Instr.opcode : Instr → Int
  | .add _ => 1
  | .mult _ => 2
  | .input _ => 3
  | .output _ => 4
  | .halt _ => 99

/-- The number of parameter words (R53). -/
def Instr.params : Instr → Nat
  | .add _ => 3
  | .mult _ => 3
  | .input _ => 1
  | .output _ => 1
  | .halt _ => 0

/-- The instruction's length in words (R53). -/
def Instr.width : Instr → Nat
  | .add _ => 4
  | .mult _ => 4
  | .input _ => 2
  | .output _ => 2
  | .halt _ => 1

/-- The failure kinds and the value None of `fail_kind` before a failure (R20, R96). -/
inductive FailKind where
  /-- None (0): the run has not failed (R20). -/
  | noFailure
  /-- InvalidOpcode (1): raised by decode (R57). -/
  | invalidOpcode
  /-- InvalidMode (2): raised by decode (R55). -/
  | invalidMode
  /-- AddressOutOfBounds (3): raised by fetch, parameter fetch, Position source and destination (R96). -/
  | addressOutOfBounds
  /-- ArithmeticOverflow (4): raised by ADD and MULT under OVERFLOW = Fault (R84). -/
  | arithmeticOverflow
deriving DecidableEq, Repr

/-- The numeric kind codes of R20. -/
def FailKind.code : FailKind → Nat
  | .noFailure => 0
  | .invalidOpcode => 1
  | .invalidMode => 2
  | .addressOutOfBounds => 3
  | .arithmeticOverflow => 4

/-- The five digit fields the decoder extracts from a word (R47), as the integers R63 gives them. -/
structure Digits where
  opcode   : Int
  mode1    : Int
  mode2    : Int
  mode3    : Int
  quotient : Int
deriving DecidableEq, Repr

/-- The outputs of the decoder block (R63). `length` is the instruction's width and parameter count, given when the opcode
is legal; `fault` is the fault indication, `noFailure` for None. -/
structure DecoderOutput where
  digits : Digits
  length : Option (Nat × Nat)
  fault  : FailKind
deriving DecidableEq, Repr

/-- The operation input of the arithmetic unit (R86): 1 is ADD, 2 is MULT. -/
inductive AluOp where
  | add
  | mult
deriving DecidableEq, Repr

/-- The outputs of the arithmetic unit (R86). -/
structure AluOutput where
  value    : Int
  overflow : Bool
deriving DecidableEq, Repr

/-- A number in assembly text: a numeral or a label, which "may stand for a number anywhere a number may" (R64). -/
inductive AsmNum where
  | num (v : Int)
  | label (name : String)
deriving DecidableEq, Repr

/-- A source operand in assembly text (R64): `[a]` is Position, `#v` is Immediate. -/
inductive AsmSource where
  | position (a : AsmNum)
  | immediate (v : AsmNum)
deriving DecidableEq, Repr

/-- An assembly item (R64). A destination is always written `[d]` and encodes mode digit 0. -/
inductive AsmItem where
  | add (s1 s2 : AsmSource) (d : AsmNum)
  | mult (s1 s2 : AsmSource) (d : AsmNum)
  | input (d : AsmNum)
  | output (s1 : AsmSource)
  | halt
  | word (v : AsmNum)
deriving DecidableEq, Repr

/-- One item with the labels written before it (R64: "`label:` before an item names its address"). -/
structure AsmLine where
  labels : List String
  item   : AsmItem
deriving DecidableEq, Repr

end Sys2Proof
end

