-- ==== Sys2Proof/WellFormed.lean ====
section
/-! DEFINITION. Well-formed instructions: those whose instruction word is a word of the machine. -/

namespace Sys2Proof

/-- The value of the four digit fields below the ignored quotient: opcode + 100·m1 + 1000·m2 + 10000·m3 (R66). -/
def Instr.lowDigits (i : Instr) : Int :=
  i.opcode + 100 * i.fields.m1.digit + 1000 * i.fields.m2.digit + 10000 * i.fields.m3.digit

/-- R62: the instruction is one the machine's memory can hold, "such that the word fits". This is the only check: modes and
the quotient's sign are right by type. -/
def Instr.wellFormed (width : WordWidth) (i : Instr) : Bool :=
  width.fits (i.lowDigits + 100000 * (i.fields.high : Int))

end Sys2Proof
end

