-- ==== Sys2Proof/Decode.lean ====
section
/-! DEFINITION. The decoder (R46 to R63), the encoder (R66), and the layout of an opcode-table word. -/

namespace Sys2Proof

/-- `tdiv(a, b)` (R7): integer division rounded toward zero. -/
def tdiv (a b : Int) : Int := Int.tdiv a b

/-- `trem(a, b) = a − b·tdiv(a, b)` (R7); it has the sign of `a` or is 0. -/
def trem (a b : Int) : Int := a - b * tdiv a b

/-- `digit_k(w) = trem(tdiv(w, 10^k), 10)` (R7). -/
def digit (k : Nat) (w : Int) : Int := trem (tdiv w (10 ^ k)) 10

/-- Steps 1 to 5 of the decoder (R48): the digit fields by repeated truncating division; all of them from every word (R50). -/
def splitWord (w : Int) : Digits :=
  let r := tdiv w 100
  let r1 := tdiv r 10
  let r2 := tdiv r1 10
  { opcode := trem w 100, mode1 := trem r 10, mode2 := trem r1 10, mode3 := trem r2 10, quotient := tdiv r2 10 }

/-- The mode a digit selects; none for an illegal digit (R54, R55). -/
def Mode.ofDigit (d : Int) : Option Mode :=
  if d = 0 then some .position else if d = 1 then some .immediate else none

/-- The three modes and the ignored quotient; none when any of the three digits is illegal (R55). -/
def fieldsOf (d : Digits) : Option Fields :=
  match Mode.ofDigit d.mode1, Mode.ofDigit d.mode2, Mode.ofDigit d.mode3 with
  | some m1, some m2, some m3 => some { m1 := m1, m2 := m2, m3 := m3, high := d.quotient.toNat }
  | _, _, _ => none

/-- The opcode map (R60): the instruction an opcode selects, given its fields; none for an illegal opcode (R57). -/
def instrOf (opcode : Int) (f : Fields) : Option Instr :=
  if opcode = 1 then some (.add f)
  else if opcode = 2 then some (.mult f)
  else if opcode = 3 then some (.input f)
  else if opcode = 4 then some (.output f)
  else if opcode = 99 then some (.halt f)
  else none

/-- R57: the opcode is one of {1, 2, 3, 4, 99}. -/
def opcodeLegal (opcode : Int) : Bool :=
  decide (opcode = 1 ∨ opcode = 2 ∨ opcode = 3 ∨ opcode = 4 ∨ opcode = 99)

/-- `decode(w)` (R48), total on every integer: the mode check and the opcode check in the order DECODE_PRIORITY gives (R58),
rejecting by the failure kind. It reads nothing but the word and the parameter. -/
def decode (priority : DecodePriority) (w : Int) : Except FailKind Instr :=
  let d := splitWord w
  match fieldsOf d with
  | none =>
    match priority with
    | .modeFirst => .error .invalidMode
    | .opcodeFirst => if opcodeLegal d.opcode then .error .invalidMode else .error .invalidOpcode
  | some f =>
    match instrOf d.opcode f with
    | some i => .ok i
    | none => .error .invalidOpcode

/-- R53: the width and parameter count the decoder knows "from the opcode alone". -/
def lengthOf (opcode : Int) : Option (Nat × Nat) :=
  (instrOf opcode { m1 := .position, m2 := .position, m3 := .position, high := 0 }).map fun i => (i.width, i.params)

/-- The decoder block (R63): a combinational function of the word. -/
def decoderBlock (priority : DecodePriority) (w : Int) : DecoderOutput :=
  { digits := splitWord w
    length := lengthOf (splitWord w).opcode
    fault := match decode priority w with
      | .ok _ => .noFailure
      | .error k => k }

/-- The instruction word of an instruction (R66): op + 100·m1 + 1000·m2 + 10000·m3, and the ignored quotient above it
(R62: + 100000·h). -/
def encode (i : Instr) : Int :=
  i.opcode + 100 * i.fields.m1.digit + 1000 * i.fields.m2.digit + 10000 * i.fields.m3.digit
    + 100000 * (i.fields.high : Int)

/-- The width at which an opcode-table word's bits are laid out in memory words: the default W = 64 (R5). DESIGN CHOICE
(log 6): the encoding has no bit fields (R47) and no byte order (R35). -/
def tableWordBits : Nat := 64

/-- The two's-complement reading of `w mod 2^bits`. -/
def signedWord (bits w : Nat) : Int :=
  let r := w % 2 ^ bits
  if r < 2 ^ (bits - 1) then (r : Int) else (r : Int) - ((2 ^ bits : Nat) : Int)

/-- The memory words of an opcode-table word `w` of `nbits` bits: bit 0 is the least significant bit of the first word, a
later word's bits count on; every bit from `nbits` on is 0; four words, the longest instruction (R53). -/
def tableWords (nbits w : Nat) : List Int :=
  let v := w % 2 ^ nbits
  [signedWord tableWordBits v,
   signedWord tableWordBits (v / 2 ^ tableWordBits),
   signedWord tableWordBits (v / 2 ^ (2 * tableWordBits)),
   signedWord tableWordBits (v / 2 ^ (3 * tableWordBits))]

/-- The instruction the decoder reads from an opcode-table word; none where it refuses. Which of the two priorities the
decoder runs under changes only the kind of a refusal (R58), so the default stands here. -/
def decodeTableWord (nbits w : Nat) : Option Instr :=
  match decode Config.specDefault.priority ((tableWords nbits w).headD 0) with
  | .ok i => some i
  | .error _ => none

end Sys2Proof
end

