-- ==== Sys2Proof/Machine/State.lean ====
section
/-! DEFINITION. The state of the core (R13), the reasons a step can stop, and the state after reset. -/

namespace Sys2Proof.Machine

/-- The memory `M[0..N−1]` (R15, R29): its length N and the cells, as (address, word) pairs in one canonical form
(`Memory.wf`, Ops.lean): strictly rising addresses below N, no listed cell equal to what an unlisted address reads as.
The unit is the word, not the byte: "there are no smaller addressable units" (R29). DESIGN CHOICE (log 3). -/
structure Memory where
  size  : Nat
  cells : List (Nat × Int)
deriving DecidableEq, Repr

/-- The run-state register (R19). -/
inductive RunState where
  | running
  | halted
  | failed
deriving DecidableEq, Repr

/-- The numeric encoding of the run state (R19). -/
def RunState.code : RunState → Nat
  | .running => 0
  | .halted => 1
  | .failed => 2

/-- The architectural state (R13), under the spec's names, and the parameters of R5 the machine was launched with
(DEDUCED, log 1: configuration, which no step writes). -/
structure State where
  /-- W, OVERFLOW and DECODE_PRIORITY (R5). -/
  config   : Config
  /-- `M` and its length `N` (R15). -/
  mem      : Memory
  /-- `pc` (R16, R17): a non-negative integer. -/
  pc       : Nat
  /-- `state` (R19). -/
  runState : RunState
  /-- `fail_kind` (R20), meaningful only when Failed. -/
  failKind : FailKind
  /-- `fail_pc` (R20), meaningful only when Failed. -/
  failPc   : Nat
  /-- `IN` (R22). -/
  input    : Int
  /-- `OUT` (R23), first emitted first. -/
  output   : List Int
deriving DecidableEq, Repr

/-- The reasons a step stops with a host fault: NONE. Every failure of this machine is a transition to the terminal state
Failed with its record (R100), so it is a next state; "Nothing in the machine is stuck" (93_implementation_defined.md).
DEDUCED (log 7). Safe: nothing is stopped that the machine goes on with. -/
inductive Fault where
deriving DecidableEq, Repr

/-- The reasons an interaction is refused. No step of the machine refuses: launches do. -/
inductive Refusal where
  /-- An instruction without a meaning; raised by no arm of `exec` (every instruction has its meaning). Safe. -/
  | notModelled (mnemonic : String)
  /-- A launch whose parameters, image words, input or length do not fit (R115: "refused: the host must not start it");
  raised by `hostLaunch`. Safe: the spec gives such a launch no run. -/
  | launchOutOfRange
  /-- A launch while a run goes on (R122: launch happens when the "core [is] not running"); raised by `hostLaunch`. Safe. -/
  | launchWhileRunning
deriving DecidableEq, Repr

/-- The machine right after reset. Launch is the core's only reset (R114) and takes the image, the input and the parameters
from the host: this is the launch of the empty image with input 0 and the spec's default parameters (R5, R28, R115:
"An empty image (N = 0) is admitted"). DESIGN CHOICE (log 4): the host's data are the model's here, all other fields are R28's.
A program is placed by a launch of its image (`State.launch`), for which `State.withFetchWord` stands (log 5). -/
def State.reset : State :=
  { config := Config.specDefault
    mem := { size := 0, cells := [] }
    pc := 0
    runState := .running
    failKind := .noFailure
    failPc := 0
    input := 0
    output := [] }

end Sys2Proof.Machine
end

