-- ==== Sys2Proof/Machine/Ops.lean ====
section
/-! DEFINITION. The named operations over memory and state: bounds, MemRead, MemWrite, fetch, the advance of pc, and taking a
failure. -/

namespace Sys2Proof.Machine

/-! ### Memory -/

/-- What an address below N that is not listed holds. Launch loads EVERY cell from the image (R15, R28), so such a cell was
loaded or written with this value: a form of writing memories down, not an initial content. DESIGN CHOICE (log 3). -/
def Memory.unlisted : Int := 0

/-- The canonical form: strictly rising addresses, all below N, no listed cell equal to `unlisted`. -/
def Memory.wf (m : Memory) : Bool :=
  decide (m.cells.Pairwise (fun c c' => c.1 < c'.1)) && m.cells.all (fun c => decide (c.1 < m.size ∧ c.2 ≠ Memory.unlisted))

/-- `valid(a)` (R32): 0 ≤ a < N on the integer address, which is never wrapped, clamped or masked. -/
def Memory.valid (m : Memory) (a : Int) : Bool := decide (0 ≤ a ∧ a < (m.size : Int))

/-- The word a list of cells gives an address. -/
def lookupCell : List (Nat × Int) → Nat → Int
  | [], _ => Memory.unlisted
  | (b, v) :: rest, a => if b = a then v else lookupCell rest a

/-- Insert a cell, keeping the addresses rising. -/
def insertCell (a : Nat) (v : Int) : List (Nat × Int) → List (Nat × Int)
  | [] => [(a, v)]
  | (b, u) :: rest => if a < b then (a, v) :: (b, u) :: rest else (b, u) :: insertCell a v rest

/-- Replace the word at an address, keeping the canonical form: a cell that becomes `unlisted` is dropped. -/
def storeCell (a : Nat) (v : Int) (cells : List (Nat × Int)) : List (Nat × Int) :=
  let rest := cells.filter (fun c => c.1 ≠ a)
  if v = Memory.unlisted then rest else insertCell a v rest

/-- `M[a]` where a is a valid address; none elsewhere (R32). The read of one cell on which everything else rests. -/
def Memory.read? (m : Memory) (a : Int) : Option Int :=
  if m.valid a then some (lookupCell m.cells a.toNat) else none

/-- `M[a] <- v` (R34), N unchanged (R15). -/
def Memory.write (m : Memory) (a : Int) (v : Int) : Memory :=
  { m with cells := storeCell a.toNat v m.cells }

/-- The cells of an image whose first word lies at address k. -/
def cellsFrom : Nat → List Int → List (Nat × Int)
  | _, [] => []
  | k, v :: rest => if v = Memory.unlisted then cellsFrom (k + 1) rest else (k, v) :: cellsFrom (k + 1) rest

/-- The memory loaded from an image (R114): N its length, `M[a] = image[a]`. -/
def Memory.ofImage (image : List Int) : Memory :=
  { size := image.length, cells := cellsFrom 0 image }

/-- The contents as the host reads them (R122): N words, address 0 first. -/
def Memory.toList (m : Memory) : List Int :=
  (List.range m.size).map (lookupCell m.cells)

/-! ### Updates of the state -/

/-- `raise Fail(k)` (R100), the one way a failure is taken: state, fail_kind and fail_pc are written, nothing else; pc keeps
the address of the failing instruction. There is no return from it (R103). -/
def State.raise (k : FailKind) (s : State) : State :=
  { s with runState := .failed, failKind := k, failPc := s.pc }

/-- The advance of pc at the end of a successful instruction (R77). -/
def State.advance (n : Nat) (s : State) : State := { s with pc := s.pc + n }

/-- `OUT <- OUT ++ [v]` (R91). -/
def State.emit (v : Int) (s : State) : State := { s with output := s.output ++ [v] }

/-- `state <- Halted` (R94); pc is not written. -/
def State.halt (s : State) : State := { s with runState := .halted }

/-- Replace the memory. -/
def State.withMem (m : Memory) (s : State) : State := { s with mem := m }

/-! ### Access primitives -/

/-- `MemRead(a, 1)` (R33). -/
def memRead (s : State) (a : Int) : Except FailKind Int :=
  match s.mem.read? a with
  | some v => .ok v
  | none => .error .addressOutOfBounds

/-- `MemWrite(a, 1, v)` (R34). -/
def memWrite (s : State) (a : Int) (v : Int) : Except FailKind State :=
  if s.mem.valid a then .ok (s.withMem (s.mem.write a v)) else .error .addressOutOfBounds

/-- Fetch and decode (R67, R68, R69): the instruction word at pc, then `decode`. -/
def fetchInstr (s : State) : Except FailKind Instr :=
  match memRead s s.pc with
  | .ok w => decode s.config.priority w
  | .error k => .error k

/-- The end of a step: the body's state, or the failure it raised, taken at this step's pc with none of the body's effects
(R8, R76, R100). -/
def finish (s : State) (r : Except FailKind State) : Host.Outcome State Fault Refusal :=
  match r with
  | .ok t => .next t
  | .error k => .next (s.raise k)

/-- What the machine does once its run is over: nothing (R80); "the state stays as the last step left it" (R113).
DESIGN CHOICE (log 8): the interface's step answers the unchanged state. -/
def idle (s : State) : Host.Outcome State Fault Refusal := .next s

/-! ### Placing a program word -/

/-- The two's-complement wrap `wrap_W(v)` (R8): the r in WORD with r ≡ v (mod 2^W); the identity when W = ∞. -/
def wrapTo : WordWidth → Int → Int
  | .bits w, v =>
    let r := v % ((2 ^ w : Nat) : Int)
    if r < ((2 ^ (w - 1) : Nat) : Int) then r else r - ((2 ^ w : Nat) : Int)
  | .unbounded, v => v

/-- Store words at successive addresses. -/
def Memory.writeAll (m : Memory) : Nat → List Int → Memory
  | _, [] => m
  | a, v :: rest => (m.write a v).writeAll (a + 1) rest

/-- The memory with at least n words; added cells hold 0. -/
def Memory.grow (m : Memory) (n : Nat) : Memory := { m with size := max m.size n }

/-- The machine with these words where its next instruction is fetched: memory long enough to hold them at pc, and running
without a failure record, so that the very next step runs what they encode. It stands for a launch whose image holds them
(log 5). -/
def State.placeWords (s : State) (words : List Int) : State :=
  { s with
    mem := (s.mem.grow (s.pc + words.length)).writeAll s.pc (words.map (wrapTo s.config.width))
    runState := .running
    failKind := .noFailure
    failPc := 0 }

end Sys2Proof.Machine
end

