-- ==== Sys2Proof/Machine/Operands.lean ====
section
/-! DEFINITION. Operand forms: parameter words, Position and Immediate sources, destinations. -/

namespace Sys2Proof.Machine

/-- Parameter word i of the instruction at pc: `MemRead(pc + i, 1)` (R52, R70). -/
def fetchParam (s : State) (i : Nat) : Except FailKind Int := memRead s ((s.pc : Int) + (i : Int))

/-- `resolve(mode, raw)` (R72). -/
def resolve (s : State) (m : Mode) (raw : Int) : Except FailKind Int :=
  match m with
  | .immediate => .ok raw
  | .position => memRead s raw

/-- A source parameter: its word fetched and then resolved, before the next parameter is fetched (R71). -/
def source (s : State) (m : Mode) (i : Nat) : Except FailKind Int := do
  let raw ← fetchParam s i
  resolve s m raw

/-- A destination parameter: the raw value as a direct address whatever its mode digit (R56, R75), checked before the result
is computed. -/
def destination (s : State) (i : Nat) : Except FailKind Int := do
  let d ← fetchParam s i
  if s.mem.valid d then .ok d else .error .addressOutOfBounds

end Sys2Proof.Machine
end

