-- ==== Sys2Proof/Machine/Flags.lean ====
section
/-! DEFINITION. The arithmetic unit. The core has no flags (R18); the one thing beside the result is the overflow indication
inside the unit (R86), which no instruction can read. -/

namespace Sys2Proof.Machine

/-- The exact integer result (R82, R85). -/
def aluExact (op : AluOp) (a b : Int) : Int :=
  match op with
  | .add => a + b
  | .mult => a * b

/-- The arithmetic unit as a block (R86): the result in WORD, and the overflow indication, "set exactly when the exact result
does not fit". R86 says of `v` that it is in WORD, and that it is not written when the indication is set under OVERFLOW = Fault;
which word it is then, it does not say: here it is the wrapped one, as under Wrap. DESIGN CHOICE (log 24): no program can
observe it, and no meaning reads this block (the bodies call `arith`). -/
def aluBlock (cfg : Config) (op : AluOp) (a b : Int) : AluOutput :=
  { value := wrapTo cfg.width (aluExact op a b), overflow := !cfg.width.fits (aluExact op a b) }

/-- `arith(x)` (R84), x the exact result. -/
def arith (cfg : Config) (x : Int) : Except FailKind Int :=
  if cfg.width.fits x then .ok x
  else match cfg.overflow with
    | .fault => .error .arithmeticOverflow
    | .wrap => .ok (wrapTo cfg.width x)

end Sys2Proof.Machine
end

