-- ==== Sys2Proof/Machine/Arith.lean ====
section
/-! DEFINITION. The meanings of ADD and MULT (41_arithmetic.md). -/

namespace Sys2Proof.Machine

/-- The body ADD and MULT share (R81, R83), in the order of R71: source 1, source 2, destination check, result, write, pc. -/
def arithBody (op : AluOp) (f : Fields) (s : State) : Except FailKind State := do
  let a ← source s f.m1 1
  let b ← source s f.m2 2
  let d ← destination s 3
  let v ← arith s.config (aluExact op a b)
  let t ← memWrite s d v
  .ok (t.advance 4)

/-- ADD (R81): `memory[dest] = a + b`. -/
def execAdd (f : Fields) (s : State) : Host.Outcome State Fault Refusal := finish s (arithBody .add f s)

/-- MULT (R83): `memory[dest] = a * b`. -/
def execMult (f : Fields) (s : State) : Host.Outcome State Fault Refusal := finish s (arithBody .mult f s)

end Sys2Proof.Machine
end

