-- ==== Sys2Proof/Machine/Halt.lean ====
section
/-! DEFINITION. The meaning of HALT (43_halt.md). -/

namespace Sys2Proof.Machine

/-- HALT (R94): transition to Halted; no parameter word is fetched and pc is not written. -/
def execHalt (_f : Fields) (s : State) : Host.Outcome State Fault Refusal := finish s (.ok s.halt)

end Sys2Proof.Machine
end

