-- ==== Sys2Proof/Machine/InputOutput.lean ====
section
/-! DEFINITION. The meanings of INPUT and OUTPUT (42_io.md). -/

namespace Sys2Proof.Machine

/-- INPUT's body (R89): the latch is stored as it is and not consumed (R90). -/
def inputBody (s : State) : Except FailKind State := do
  let d ← destination s 1
  let t ← memWrite s d s.input
  .ok (t.advance 2)

/-- INPUT (R89): `memory[dest] = input_value`. All three mode digits are unused (R55, R56). -/
def execInput (_f : Fields) (s : State) : Host.Outcome State Fault Refusal := finish s (inputBody s)

/-- OUTPUT's body (R91). -/
def outputBody (f : Fields) (s : State) : Except FailKind State := do
  let a ← source s f.m1 1
  .ok ((s.emit a).advance 2)

/-- OUTPUT (R91): append a to the output sequence. -/
def execOutput (f : Fields) (s : State) : Host.Outcome State Fault Refusal := finish s (outputBody f s)

end Sys2Proof.Machine
end

