-- ==== Sys2Proof/Machine/Dispatch.lean ====
section
/-! DEFINITION. The dispatch: one arm per row of the opcode table (R60, R67). -/

namespace Sys2Proof.Machine

def exec (i : Instr) (s : State) : Host.Outcome State Fault Refusal :=
  match i with
  | .add f => Sys2Proof.Machine.execAdd f s
  | .mult f => Sys2Proof.Machine.execMult f s
  | .input f => Sys2Proof.Machine.execInput f s
  | .output f => Sys2Proof.Machine.execOutput f s
  | .halt f => Sys2Proof.Machine.execHalt f s

end Sys2Proof.Machine
end

