-- ==== Sys2Proof/Machine/Step.lean ====
section
/-! DEFINITION. One step of the engine (R67), and where a program word is placed for it. -/

namespace Sys2Proof.Machine

/-- One step (R67): taken only when Running (R80); fetch, decode, and the decoded instruction's body, or the failure the
fetch or the decode raised (R68, R69). -/
def step (s : State) : Host.Outcome State Fault Refusal :=
  match s.runState with
  | .running =>
    match fetchInstr s with
    | .ok i => exec i s
    | .error k => finish s (.error k)
  | .halted => idle s
  | .failed => idle s

/-- The machine with an opcode-table word where `step` fetches its next instruction (at pc), operand words of zeros after it
(log 5, log 6). -/
def State.withFetchWord (s : State) (nbits w : Nat) : State := s.placeWords (tableWords nbits w)

end Sys2Proof.Machine
end

