-- ==== Sys2Proof/Machine/Assembly.lean ====
section
/-! DEFINITION. The assembly syntax of R64 as abstract syntax: encoding with labels, and disassembly. -/

namespace Sys2Proof.Machine

/-- The mode a source operand encodes: `[a]` Position, `#v` Immediate (R64). -/
def sourceMode : AsmSource → Mode
  | .position _ => .position
  | .immediate _ => .immediate

/-- The number a source operand holds. -/
def sourceNum : AsmSource → AsmNum
  | .position a => a
  | .immediate v => v

/-- The fields of an item's instruction word: the named sources' modes, every other digit 0 (R64). -/
def asmFields (m1 m2 : Mode) : Fields := { m1 := m1, m2 := m2, m3 := .position, high := 0 }

/-- The words of an item before labels are resolved (the table of R64). -/
def itemWords : AsmItem → List AsmNum
  | .add s1 s2 d =>
    [.num (encode (.add (asmFields (sourceMode s1) (sourceMode s2)))), sourceNum s1, sourceNum s2, d]
  | .mult s1 s2 d =>
    [.num (encode (.mult (asmFields (sourceMode s1) (sourceMode s2)))), sourceNum s1, sourceNum s2, d]
  | .input d => [.num (encode (.input (asmFields .position .position))), d]
  | .output s1 => [.num (encode (.output (asmFields (sourceMode s1) .position))), sourceNum s1]
  | .halt => [.num (encode (.halt (asmFields .position .position)))]
  | .word v => [v]

/-- The addresses labels name, the first item lying at address a (R64). -/
def labelTable : Nat → List AsmLine → List (String × Nat)
  | _, [] => []
  | a, l :: rest => l.labels.map (fun n => (n, a)) ++ labelTable (a + (itemWords l.item).length) rest

/-- A number's value; none for a label the program does not define. DESIGN CHOICE (log 19): R64 says nothing of it. -/
def asmValue (table : List (String × Nat)) : AsmNum → Option Int
  | .num v => some v
  | .label n => (table.find? (fun e => e.1 == n)).map fun e => (e.2 : Int)

/-- The image of an assembly program (R64); none when a label is not defined. -/
def assemble (program : List AsmLine) : Option (List Int) :=
  ((program.map fun l => itemWords l.item).flatten).mapM (asmValue (labelTable 0 program))

/-- The source operand a mode and a raw value spell. -/
def asmSourceOf (m : Mode) (raw : Int) : AsmSource :=
  match m with
  | .position => .position (.num raw)
  | .immediate => .immediate (.num raw)

/-- The item at the head of a list of words, and how many words it takes. A word that fails to decode, one the syntax cannot
spell (a digit not named by a source other than 0, a high digit), and one whose parameter words are missing is `.word` (R64). -/
def disassembleHead (w : Int) (rest : List Int) : AsmItem × Nat :=
  match decode Config.specDefault.priority w, rest with
  | .ok (.add f), r1 :: r2 :: d :: _ =>
    if f = asmFields f.m1 f.m2 then (.add (asmSourceOf f.m1 r1) (asmSourceOf f.m2 r2) (.num d), 3) else (.word (.num w), 0)
  | .ok (.mult f), r1 :: r2 :: d :: _ =>
    if f = asmFields f.m1 f.m2 then (.mult (asmSourceOf f.m1 r1) (asmSourceOf f.m2 r2) (.num d), 3) else (.word (.num w), 0)
  | .ok (.input f), d :: _ =>
    if f = asmFields .position .position then (.input (.num d), 1) else (.word (.num w), 0)
  | .ok (.output f), r1 :: _ =>
    if f = asmFields f.m1 .position then (.output (asmSourceOf f.m1 r1), 1) else (.word (.num w), 0)
  | .ok (.halt f), _ =>
    if f = asmFields .position .position then (.halt, 0) else (.word (.num w), 0)
  | _, _ => (.word (.num w), 0)

/-- Disassembly of at most `fuel` items. -/
def disassembleFrom : Nat → List Int → List AsmItem
  | 0, _ => []
  | _, [] => []
  | fuel + 1, w :: rest =>
    (disassembleHead w rest).1 :: disassembleFrom fuel (rest.drop (disassembleHead w rest).2)

/-- The disassembly of an image, read from address 0: the inverse of the table of R64. -/
def disassemble (image : List Int) : List AsmItem := disassembleFrom image.length image

end Sys2Proof.Machine
end

