-- ==== Sys2Proof/Machine/Launch.lean ====
section
/-! DEFINITION. The host interface (R122): launch and the result of a run. -/

namespace Sys2Proof.Machine

/-- `launch(image, input)` (R114): every state element at the value of R28, in one action. -/
def State.launch (cfg : Config) (image : List Int) (input : Int) : State :=
  { config := cfg
    mem := Memory.ofImage image
    pc := 0
    runState := .running
    failKind := .noFailure
    failPc := 0
    input := input
    output := [] }

/-- The launch preconditions (R115) and the parameters' allowed values (R5). -/
def launchAdmitted (cfg : Config) (image : List Int) (input : Int) : Bool :=
  cfg.width.allowed && cfg.width.admitsLength image.length && image.all cfg.width.fits && cfg.width.fits input

/-- The launch interaction (R122): `before` is the core's state after an earlier launch, none before the first run. It is
refused while a run goes on, and refused for data that does not fit (R115); otherwise it replaces all state (R113, R116). -/
def hostLaunch (before : Option State) (cfg : Config) (image : List Int) (input : Int) :
    Host.Outcome State Fault Refusal :=
  if (before.map (fun s => s.runState)) = some .running then .refused .launchWhileRunning
  else if launchAdmitted cfg image input then .next (State.launch cfg image input)
  else .refused .launchOutOfRange

/-- The result of a run (R121). -/
inductive RunResult where
  /-- Halted: the final memory and the outputs (R95). -/
  | halted (memory : List Int) (output : List Int)
  /-- Failed: the failure kind and the failing pc, nothing else (R102). -/
  | failed (kind : FailKind) (pc : Nat)
deriving DecidableEq, Repr

/-- What the host can read (R122): the result once the run is over, nothing while Running. -/
def State.result (s : State) : Option RunResult :=
  match s.runState with
  | .running => none
  | .halted => some (.halted s.mem.toList s.output)
  | .failed => some (.failed s.failKind s.failPc)

end Sys2Proof.Machine
end

