-- ==== Sys2Proof/Safety.lean ====
section
/-! DEFINITION. The terms claims are stated in: the invariant of launched machines, the operands an instruction reads, and
what it is for a run to be over. -/

namespace Sys2Proof.Machine

/-- `M[a]` as a claim reads it: none outside the memory (R32). -/
def State.cell (s : State) (a : Int) : Option Int := s.mem.read? a

/-- The raw value of parameter i, if its word lies in memory (R52). -/
def State.paramWord (s : State) (i : Nat) : Option Int := s.cell ((s.pc : Int) + (i : Int))

/-- The operand a raw value gives under a mode, if it has one (R54). -/
def State.operandOf (s : State) (m : Mode) (raw : Int) : Option Int :=
  match m with
  | .immediate => some raw
  | .position => s.cell raw

/-- The value of source parameter i, if it can be resolved (R72). -/
def State.sourceValue (s : State) (m : Mode) (i : Nat) : Option Int := (s.paramWord i).bind (s.operandOf m)

/-- The run is over: "A run is over exactly when `state ≠ Running`" (R80). -/
abbrev State.over (s : State) : Prop := s.runState ≠ .running

/-- Two states give an instruction the same words to read (R27, R31): its destination's raw value and its sources' values. -/
def readsAgree (i : Instr) (s s' : State) : Prop :=
  match i with
  | .add f | .mult f =>
    s'.sourceValue f.m1 1 = s.sourceValue f.m1 1 ∧ s'.sourceValue f.m2 2 = s.sourceValue f.m2 2 ∧
      s'.paramWord 3 = s.paramWord 3
  | .input _ => s'.paramWord 1 = s.paramWord 1
  | .output f => s'.sourceValue f.m1 1 = s.sourceValue f.m1 1
  | .halt _ => True

/-- The three mode digits of a word are legal (R55). -/
abbrev modesLegal (w : Int) : Prop :=
  (digit 2 w = 0 ∨ digit 2 w = 1) ∧ (digit 3 w = 0 ∨ digit 3 w = 1) ∧ (digit 4 w = 0 ∨ digit 4 w = 1)

/-- The opcode of a word is legal (R57). -/
abbrev opcodeKnown (w : Int) : Prop :=
  trem w 100 = 1 ∨ trem w 100 = 2 ∨ trem w 100 = 3 ∨ trem w 100 = 4 ∨ trem w 100 = 99

/-- A safe run's states: no failure has been taken (R96). -/
abbrev State.safe (s : State) : Prop := s.runState ≠ .failed

/-- What holds of every state a launch leads to: the parameters, words and lengths the launch admitted (R5, R115), the
canonical form of memory, the bounds of pc and OUT (R17, R23), and the meaning of the failure record (R17, R20). -/
structure State.Inv (s : State) : Prop where
  /-- R5 (log 21). -/
  widthAllowed : s.config.width.allowed = true
  /-- R5, R17: the limit on N (the spec's decision D11, log 22). -/
  lengthAdmitted : s.config.width.admitsLength s.mem.size = true
  /-- The canonical form of memory (log 3). -/
  memForm : s.mem.wf = true
  /-- Every cell holds a word (R6, R15). -/
  memWords : ∀ a v, s.cell a = some v → s.config.width.fits v = true
  /-- `IN` is a word (R22). -/
  inputWord : s.config.width.fits s.input = true
  /-- Every entry of `OUT` is a word (R92). -/
  outputWords : ∀ v ∈ s.output, s.config.width.fits v = true
  /-- R17: pc ≤ N + 3. -/
  pcBound : s.pc ≤ s.mem.size + 3
  /-- Each OUTPUT advanced pc by 2 (R77). -/
  outputBelowPc : 2 * s.output.length ≤ s.pc
  /-- R23: at most ⌈N/2⌉ entries. -/
  outputBound : s.output.length ≤ (s.mem.size + 1) / 2
  /-- R17: after HALT pc holds the address of the HALT word (the spec's decision D8, log 14). -/
  haltedAtHalt : s.runState = .halted → ∃ w f, s.cell s.pc = some w ∧ decode s.config.priority w = .ok (.halt f)
  /-- R20: the record holds a kind exactly after a failure; before, None (the spec's decision D9, log 15). -/
  recordKind : s.failKind ≠ .noFailure ↔ s.runState = .failed
  /-- R17, R20: after a failure fail_pc is pc (D8, log 14); before, it is 0 (D9, log 15). -/
  recordPc : s.failPc = if s.runState = .failed then s.pc else 0
  /-- R20: ArithmeticOverflow "exists only under OVERFLOW = Fault". -/
  overflowKind : s.failKind = .arithmeticOverflow → s.config.overflow = .fault

end Sys2Proof.Machine
end

