-- ==== Sys2Proof/Certificates/Slice0/Obligations.lean ====
section
/-! DEFINITION. The statements for the provers. Each docstring names the rule of spec/ it formalises. Where a rule is marked in
the spec as the spec's own decision (D<n>) or derivation, the statement's basis is 'derived' and the docstring says so. -/

open Sys2Proof Sys2Proof.Machine

/-! ### Encoding (30_encoding.md) -/

/-- R62, R66 (derived in the spec from R48, R51): decode of encode gives the instruction back, for every opcode, every mode
triple and every ignored quotient, under both priorities; and the well-formed instructions are those whose word fits. -/
def Obligations.EncodedInstructionsDecodeBack : Prop :=
  ∀ i : Instr, (∀ p : DecodePriority, decode p (encode i) = .ok i) ∧
    ∀ width : WordWidth, i.wellFormed width = true ↔ width.fits (encode i) = true

/-- R47, R62, and the model's kept quotient (log 10): no digit of a word that decodes is lost. -/
def Obligations.DecodedWordsEncodeBack : Prop :=
  ∀ (p : DecodePriority) (w : Int) (i : Instr), decode p w = .ok i → encode i = w

/-- R60: "A word `w` selects an instruction exactly when its mode digits are legal (rule R55) and `trem(w, 100)` is one of the
five values"; which one, and the mode fields of R47. Truncating remainder is the spec's decision D3 (log 11). The last clause, that
the instruction's high field is the quotient `tdiv(w, 100000)`, is the model's choice (log 10): R48 returns the opcode and the
three modes only, and R51 never examines the quotient. -/
def Obligations.WordsSelectInstructionsExactly : Prop :=
  ∀ (p : DecodePriority) (w : Int),
    ((∃ i, decode p w = .ok i) ↔ modesLegal w ∧ opcodeKnown w) ∧
    ∀ i, decode p w = .ok i →
      i.opcode = trem w 100 ∧ i.fields.m1.digit = digit 2 w ∧ i.fields.m2.digit = digit 3 w ∧
        i.fields.m3.digit = digit 4 w ∧ (i.fields.high : Int) = tdiv w 100000

/-- R48, R55, R57, R58: which failure kind an illegal word reports. The priority between the two is the spec's parameter (D4,
log 1). -/
def Obligations.IllegalWordsReportTheirKind : Prop :=
  ∀ w : Int,
    (modesLegal w → ¬ opcodeKnown w → ∀ p, decode p w = .error .invalidOpcode) ∧
    (¬ modesLegal w → opcodeKnown w → ∀ p, decode p w = .error .invalidMode) ∧
    (¬ modesLegal w → ¬ opcodeKnown w →
      decode .modeFirst w = .error .invalidMode ∧ decode .opcodeFirst w = .error .invalidOpcode)

/-- R59 (the spec's decision D3, log 11): every negative word fails to decode, and by which kind. -/
def Obligations.NegativeWordsNeverDecode : Prop :=
  ∀ w : Int, w < 0 →
    decode .opcodeFirst w = .error .invalidOpcode ∧
    ((digit 2 w = 0 ∧ digit 3 w = 0 ∧ digit 4 w = 0) → decode .modeFirst w = .error .invalidOpcode) ∧
    (¬ (digit 2 w = 0 ∧ digit 3 w = 0 ∧ digit 4 w = 0) → decode .modeFirst w = .error .invalidMode)

/-- R51 (derived in the spec from R48): digits above the ten-thousands digit affect neither decoding nor what the instruction
does, and raise no failure. -/
def Obligations.HighDigitsAreIgnored : Prop :=
  ∀ (p : DecodePriority) (w h : Int), 0 ≤ w → 0 ≤ h →
    (∀ k, decode p w = .error k → decode p (w + 100000 * h) = .error k) ∧
    (∀ i, decode p w = .ok i → ∃ j, decode p (w + 100000 * h) = .ok j ∧ j.opcode = i.opcode ∧
      j.fields.m1 = i.fields.m1 ∧ j.fields.m2 = i.fields.m2 ∧ j.fields.m3 = i.fields.m3 ∧ ∀ s, exec j s = exec i s)

/-- R55, R56: a destination's mode digit may be 0 or 1 with the same effect, and 2 to 9 there fail with InvalidMode. -/
def Obligations.DestinationDigitsAreCheckedAndIgnored : Prop :=
  (∀ (m1 m2 m3 m3' : Mode) (h : Nat) (s : State),
    exec (.add ⟨m1, m2, m3, h⟩) s = exec (.add ⟨m1, m2, m3', h⟩) s ∧
    exec (.mult ⟨m1, m2, m3, h⟩) s = exec (.mult ⟨m1, m2, m3', h⟩) s ∧
    exec (.input ⟨m1, m2, m3, h⟩) s = exec (.input ⟨m3', m2, m3, h⟩) s) ∧
  (∀ (p : DecodePriority) (m m' : Mode) (k : Int), 2 ≤ k → k ≤ 9 →
    decode p (1 + 100 * m.digit + 1000 * m'.digit + 10000 * k) = .error .invalidMode ∧
    decode p (2 + 100 * m.digit + 1000 * m'.digit + 10000 * k) = .error .invalidMode ∧
    decode p (3 + 100 * k + 1000 * m.digit + 10000 * m'.digit) = .error .invalidMode)

/-- Sanity, from the worked words of 95_test_vectors.md 2.1 (D-DEC-1, 2, 5, 6, 8, 17 and 15, 18). -/
def Obligations.WorkedWordsDecodeAsListed : Prop :=
  decode .modeFirst 1 = .ok (.add ⟨.position, .position, .position, 0⟩) ∧
  decode .modeFirst 1002 = .ok (.mult ⟨.position, .immediate, .position, 0⟩) ∧
  decode .modeFirst 103 = .ok (.input ⟨.immediate, .position, .position, 0⟩) ∧
  decode .modeFirst 104 = .ok (.output ⟨.immediate, .position, .position, 0⟩) ∧
  decode .modeFirst 11199 = .ok (.halt ⟨.immediate, .immediate, .immediate, 0⟩) ∧
  decode .modeFirst 1200099 = .ok (.halt ⟨.position, .position, .position, 12⟩) ∧
  decode .modeFirst 205 = .error .invalidMode ∧ decode .opcodeFirst 205 = .error .invalidOpcode ∧
  decode .modeFirst (-1) = .error .invalidOpcode

/-- R64 (the spec's decision D13): assembling the disassembly of an image gives the image back, word for word. R64 gives the
disassembly of a word only; reading an image from address 0, `.word` for a word whose parameter words are missing, and the
abstract syntax are the model's choices (log 19). That a word the syntax spells gives its item is
SpellableWordsDisassembleToTheirItems. -/
def Obligations.DisassemblyReassembles : Prop :=
  ∀ image : List Int, assemble ((disassemble image).map fun item => ⟨[], item⟩) = some image

/-- R64 (the spec's decision D13; abstract syntax: the model's choice, log 19): the table of R64, both ways. Each form without
labels assembles to the words of its row, mode digit 0 wherever no source is named; those words, at the head of an image, are
read as that form and not as `.word`; and "a word that fails `decode` disassembles as `.word w`". That the rest is read on from
the next word is the model's choice (log 19). -/
def Obligations.SpellableWordsDisassembleToTheirItems : Prop :=
  (∀ (m1 m2 : Mode) (r1 r2 d : Int),
    assemble [⟨[], .add (asmSourceOf m1 r1) (asmSourceOf m2 r2) (.num d)⟩] =
      some [1 + 100 * m1.digit + 1000 * m2.digit, r1, r2, d] ∧
    assemble [⟨[], .mult (asmSourceOf m1 r1) (asmSourceOf m2 r2) (.num d)⟩] =
      some [2 + 100 * m1.digit + 1000 * m2.digit, r1, r2, d] ∧
    assemble [⟨[], .input (.num d)⟩] = some [3, d] ∧
    assemble [⟨[], .output (asmSourceOf m1 r1)⟩] = some [4 + 100 * m1.digit, r1] ∧
    assemble [⟨[], .halt⟩] = some [99] ∧ assemble [⟨[], .word (.num d)⟩] = some [d]) ∧
  (∀ (m1 m2 : Mode) (r1 r2 d : Int) (rest : List Int),
    disassemble ((1 + 100 * m1.digit + 1000 * m2.digit) :: r1 :: r2 :: d :: rest) =
      .add (asmSourceOf m1 r1) (asmSourceOf m2 r2) (.num d) :: disassemble rest ∧
    disassemble ((2 + 100 * m1.digit + 1000 * m2.digit) :: r1 :: r2 :: d :: rest) =
      .mult (asmSourceOf m1 r1) (asmSourceOf m2 r2) (.num d) :: disassemble rest ∧
    disassemble (3 :: d :: rest) = .input (.num d) :: disassemble rest ∧
    disassemble ((4 + 100 * m1.digit) :: r1 :: rest) = .output (asmSourceOf m1 r1) :: disassemble rest ∧
    disassemble (99 :: rest) = .halt :: disassemble rest) ∧
  (∀ (w : Int) (k : FailKind) (rest : List Int), decode .modeFirst w = .error k →
    disassemble (w :: rest) = .word (.num w) :: disassemble rest)

/-! ### The step (40_cycle_and_operands.md) -/

/-- R67: a step is taken only when Running, and when the word at pc decodes to i, the step is i's execution. The model adds
nothing around it: no pc movement before the body, which reads pc as the address of its own instruction word (R17). -/
def Obligations.StepRunsDecodedInstruction : Prop :=
  ∀ (s : State) (w : Int) (i : Instr), s.runState = .running → s.cell s.pc = some w →
    decode s.config.priority w = .ok i → step s = exec i s

/-- R68 (the kind is the spec's decision D5, log 12): a fetch outside memory fails, and does nothing else. -/
def Obligations.FetchOutsideMemoryFails : Prop :=
  ∀ s : State, s.runState = .running → s.mem.size ≤ s.pc →
    step s = .next { s with runState := .failed, failKind := .addressOutOfBounds, failPc := s.pc }

/-- R69: "the step fails at once with that kind and `fail_pc = pc`; no parameter word is fetched and no state but the failure
record and `state` changes." That no parameter word is read is the conclusion's independence of every cell but the one at pc. -/
def Obligations.UndecodableWordsFailAtOnce : Prop :=
  ∀ (s : State) (w : Int) (k : FailKind), s.runState = .running → s.cell s.pc = some w →
    decode s.config.priority w = .error k →
    step s = .next { s with runState := .failed, failKind := k, failPc := s.pc }

/-- R80, R113: no step is taken once the run is over, and the state stays. That the interface's step answers the unchanged state
is the model's choice (log 8). -/
def Obligations.NothingHappensAfterTheEnd : Prop :=
  ∀ s : State, s.over → ∀ k : Nat, Host.Core.run Sys2Proof.core k s = .next s

/-- R72: "if mode = 1: return raw; if mode = 0: return MemRead(raw, 1)", Position failing "with `AddressOutOfBounds` if
`raw_value` is negative or ≥ memory length". -/
def Obligations.ResolveFollowsTheMode : Prop :=
  ∀ (s : State) (raw : Int),
    resolve s .immediate raw = .ok raw ∧
    (∀ v, s.cell raw = some v → resolve s .position raw = .ok v) ∧
    (0 ≤ raw ∧ raw < (s.mem.size : Int) → ∃ v, s.cell raw = some v) ∧
    (raw < 0 ∨ (s.mem.size : Int) ≤ raw → resolve s .position raw = .error .addressOutOfBounds)

/-- R16: pc is 0 at launch; a completed instruction other than HALT advances it by its width; HALT and a failure leave it;
it is never decremented; and a pc that is no index into memory at the decode ends the run in failure. -/
def Obligations.PcAdvancesByTheWidth : Prop :=
  (∀ cfg image input, (State.launch cfg image input).pc = 0) ∧
  (∀ s t : State, s.runState = .running → step s = .next t →
    (t.runState = .running → ∃ w i, s.cell s.pc = some w ∧ decode s.config.priority w = .ok i ∧
      t.pc = s.pc + i.width ∧ (i.width = 4 ∨ i.width = 2)) ∧
    (t.runState ≠ .running → t.pc = s.pc) ∧ s.pc ≤ t.pc ∧
    (s.mem.size ≤ s.pc → t.runState = .failed))

/-! ### Arithmetic (41_arithmetic.md) -/

/-- R81, R71, R88: ADD completes whenever its operands and destination lie in memory and the sum fits: the next state is this
one and no other, so every other element is unchanged. The operands are read before the write, whatever the destination. -/
def Obligations.AddStoresTheSum : Prop :=
  ∀ (f : Fields) (s : State) (a b d : Int),
    s.sourceValue f.m1 1 = some a → s.sourceValue f.m2 2 = some b → s.paramWord 3 = some d →
    0 ≤ d → d < (s.mem.size : Int) → s.config.width.fits (a + b) = true →
    ∃ t, exec (.add f) s = .next t ∧ t = { s with mem := s.mem.write d (a + b), pc := s.pc + 4 } ∧
      t.cell d = some (a + b) ∧ ∀ x, x ≠ d → t.cell x = s.cell x

/-- R83, R71, R88: MULT completes whenever its operands and destination lie in memory and the product fits. -/
def Obligations.MultStoresTheProduct : Prop :=
  ∀ (f : Fields) (s : State) (a b d : Int),
    s.sourceValue f.m1 1 = some a → s.sourceValue f.m2 2 = some b → s.paramWord 3 = some d →
    0 ≤ d → d < (s.mem.size : Int) → s.config.width.fits (a * b) = true →
    ∃ t, exec (.mult f) s = .next t ∧ t = { s with mem := s.mem.write d (a * b), pc := s.pc + 4 } ∧
      t.cell d = some (a * b) ∧ ∀ x, x ≠ d → t.cell x = s.cell x

/-- R84 (the policy is the spec's parameter, D2, log 1): a result that does not fit fails the step under Fault, and is stored
wrapped under Wrap: the word congruent to it modulo 2^W. -/
def Obligations.OverflowFollowsThePolicy : Prop :=
  ∀ (i : Instr) (f : Fields) (s : State) (a b d x : Int),
    (i = .add f ∧ x = a + b ∨ i = .mult f ∧ x = a * b) → s.config.width.allowed = true →
    s.sourceValue f.m1 1 = some a → s.sourceValue f.m2 2 = some b → s.paramWord 3 = some d →
    0 ≤ d → d < (s.mem.size : Int) → s.config.width.fits x = false →
    (s.config.overflow = .fault →
      exec i s = .next { s with runState := .failed, failKind := .arithmeticOverflow, failPc := s.pc }) ∧
    (s.config.overflow = .wrap → ∃ w v, s.config.width = .bits w ∧ s.config.width.fits v = true ∧
      ((2 ^ w : Nat) : Int) ∣ x - v ∧ exec i s = .next { s with mem := s.mem.write d v, pc := s.pc + 4 })

/-- R70, R72, R75, R99 (kinds and order are the spec's decisions D5 to D7, log 12, log 13): a parameter word, a Position source
or a destination outside memory fails ADD and MULT with AddressOutOfBounds, before and whatever the overflow check. -/
def Obligations.ArithmeticFailsOnBadAddresses : Prop :=
  ∀ (i : Instr) (f : Fields) (s : State), (i = .add f ∨ i = .mult f) →
    (s.sourceValue f.m1 1 = none ∨ s.sourceValue f.m2 2 = none ∨ s.paramWord 3 = none ∨
      ∃ d, s.paramWord 3 = some d ∧ (d < 0 ∨ (s.mem.size : Int) ≤ d)) →
    exec i s = .next { s with runState := .failed, failKind := .addressOutOfBounds, failPc := s.pc }

/-- R84 (the spec's decision D2, log 1), as the function of the arithmetic unit: identity on what fits, and always for W = ∞. -/
def Obligations.ArithmeticResultRule : Prop :=
  ∀ (cfg : Config) (x : Int),
    (cfg.width.fits x = true → arith cfg x = .ok x) ∧
    (cfg.width.fits x = false → cfg.overflow = .fault → arith cfg x = .error .arithmeticOverflow) ∧
    (cfg.width.fits x = false → cfg.overflow = .wrap → arith cfg x = .ok (wrapTo cfg.width x)) ∧
    (cfg.width = .unbounded → arith cfg x = .ok x)

/-- R8: `wrap_W(v)` is "the unique `r` in `WORD` with `r ≡ v (mod 2^W)`; identity when `W = ∞`". -/
def Obligations.WrapIsTheUniqueRepresentative : Prop :=
  (∀ v : Int, wrapTo .unbounded v = v) ∧
  ∀ (w : Nat) (v r : Int), 8 ≤ w →
    (r = wrapTo (.bits w) v ↔ (WordWidth.bits w).fits r = true ∧ ((2 ^ w : Nat) : Int) ∣ r - v)

/-- R86 (derived in the spec from R84): the block's overflow indication is set exactly when the exact result does not fit, its
value is a word, and the engine writes it only when the indication is clear or OVERFLOW = Wrap. -/
def Obligations.AluBlockAgreesWithTheEngine : Prop :=
  ∀ (cfg : Config) (op : AluOp) (a b : Int), cfg.width.allowed = true →
    ((aluBlock cfg op a b).overflow = true ↔ cfg.width.fits (aluExact op a b) = false) ∧
    cfg.width.fits (aluBlock cfg op a b).value = true ∧
    ((aluBlock cfg op a b).overflow = false ∨ cfg.overflow = .wrap →
      arith cfg (aluExact op a b) = .ok (aluBlock cfg op a b).value) ∧
    ((aluBlock cfg op a b).overflow = true → cfg.overflow = .fault →
      arith cfg (aluExact op a b) = .error .arithmeticOverflow)

/-! ### Input, output and halt (42_io.md, 43_halt.md) -/

/-- R89, R90: INPUT completes whenever its destination lies in memory, storing the latch as it is and not consuming it. -/
def Obligations.InputStoresTheLatch : Prop :=
  ∀ (f : Fields) (s : State) (d : Int), s.paramWord 1 = some d → 0 ≤ d → d < (s.mem.size : Int) →
    ∃ t, exec (.input f) s = .next t ∧ t = { s with mem := s.mem.write d s.input, pc := s.pc + 2 } ∧
      t.cell d = some s.input ∧ ∀ x, x ≠ d → t.cell x = s.cell x

/-- R91, R92: OUTPUT completes whenever its operand can be read, appending it. -/
def Obligations.OutputAppendsTheOperand : Prop :=
  ∀ (f : Fields) (s : State) (a : Int), s.sourceValue f.m1 1 = some a →
    exec (.output f) s = .next { s with output := s.output ++ [a], pc := s.pc + 2 }

/-- R89, R91, R70, R72, R75 (kinds: D5, D6, log 12): where INPUT and OUTPUT fail. -/
def Obligations.InputAndOutputFailOnBadAddresses : Prop :=
  ∀ (f : Fields) (s : State),
    (s.paramWord 1 = none ∨ (∃ d, s.paramWord 1 = some d ∧ (d < 0 ∨ (s.mem.size : Int) ≤ d)) →
      exec (.input f) s = .next { s with runState := .failed, failKind := .addressOutOfBounds, failPc := s.pc }) ∧
    (s.paramWord 1 = none ∨
        (f.m1 = .position ∧ ∃ r, s.paramWord 1 = some r ∧ (r < 0 ∨ (s.mem.size : Int) ≤ r)) →
      exec (.output f) s = .next { s with runState := .failed, failKind := .addressOutOfBounds, failPc := s.pc })

/-- R94 (that pc is kept is the spec's decision D8, log 14): HALT completes in every state, whatever its mode digits and
whatever follows it. -/
def Obligations.HaltEndsTheRun : Prop :=
  ∀ (f : Fields) (s : State), exec (.halt f) s = .next { s with runState := .halted }

/-- R22: the latch is "loaded once at launch and is never written during the run"; "every Input instruction during the run
stores this same value"; "Only INPUT reads it"; "A program that executes no INPUT never observes it." -/
def Obligations.InputLatchIsConstantAndReadOnlyByInput : Prop :=
  (∀ cfg image v, (State.launch cfg image v).input = v) ∧
  (∀ (k : Nat) (s t : State), Host.Core.run Sys2Proof.core k s = .next t → t.input = s.input) ∧
  (∀ (f : Fields) (s t : State) (d : Int), exec (.input f) s = .next t → s.paramWord 1 = some d →
    s.mem.valid d = true → t.cell d = some s.input) ∧
  (∀ (i : Instr) (s t : State) (v : Int), (∀ f, i ≠ .input f) → exec i s = .next t →
    exec i { s with input := v } = .next { t with input := v })

/-- R23, R92 (that OUT is unbounded is the spec's decision D10, log 16): along every run OUT only grows at its end, never more
than one entry a step, and only by OUTPUT. -/
def Obligations.OutputsAreAppendOnly : Prop :=
  (∀ (k : Nat) (s t : State), Host.Core.run Sys2Proof.core k s = .next t → s.output <+: t.output) ∧
  (∀ s t : State, step s = .next t → t.output ≠ s.output → ∃ w f a, s.cell s.pc = some w ∧
    decode s.config.priority w = .ok (.output f) ∧ s.sourceValue f.m1 1 = some a ∧ t.output = s.output ++ [a])

/-- R123, of the outputs already emitted: a run goes the same whatever they are, so none of them makes it fail or halt. Of the
value being emitted, that OUTPUT completes whatever its operand is, OutputAppendsTheOperand says the rest. -/
def Obligations.OutputsNeverInfluenceTheRun : Prop :=
  ∀ (k : Nat) (s t : State) (o : List Int), Host.Core.run Sys2Proof.core k s = .next t →
    ∃ e, t.output = s.output ++ e ∧
      Host.Core.run Sys2Proof.core k { s with output := o } = .next { t with output := o ++ e }

/-! ### Frames (R27, R76) -/

/-- R27, R81, R83: what ADD and MULT leave unchanged in every next state: all but pc, the cell the third parameter word names,
and, when they fail, the run state and the record. -/
def Obligations.ArithmeticFrame : Prop :=
  ∀ (f : Fields) (s t : State), (exec (.add f) s = .next t ∨ exec (.mult f) s = .next t) →
    t.config = s.config ∧ t.input = s.input ∧ t.output = s.output ∧ t.mem.size = s.mem.size ∧
    (∀ d, s.paramWord 3 = some d → ∀ x, x ≠ d → t.cell x = s.cell x) ∧
    (s.paramWord 3 = none → ∀ x, t.cell x = s.cell x) ∧
    ((t.runState = s.runState ∧ t.failKind = s.failKind ∧ t.failPc = s.failPc) ∨
      t = { s with runState := .failed, failKind := t.failKind, failPc := s.pc })

/-- R27, R89: what INPUT leaves unchanged in every next state. -/
def Obligations.InputFrame : Prop :=
  ∀ (f : Fields) (s t : State), exec (.input f) s = .next t →
    t.config = s.config ∧ t.input = s.input ∧ t.output = s.output ∧ t.mem.size = s.mem.size ∧
    (∀ d, s.paramWord 1 = some d → ∀ x, x ≠ d → t.cell x = s.cell x) ∧
    (s.paramWord 1 = none → ∀ x, t.cell x = s.cell x) ∧
    ((t.runState = s.runState ∧ t.failKind = s.failKind ∧ t.failPc = s.failPc) ∨
      t = { s with runState := .failed, failKind := t.failKind, failPc := s.pc })

/-- R27, R91, R94: OUTPUT and HALT store nothing: every cell reads as before, and only what R27 lists changes. -/
def Obligations.OutputAndHaltFrame : Prop :=
  ∀ (f : Fields) (s t : State),
    (exec (.output f) s = .next t →
      t.config = s.config ∧ t.input = s.input ∧ t.mem.size = s.mem.size ∧ (∀ x, t.cell x = s.cell x) ∧
      ((t.runState = s.runState ∧ t.failKind = s.failKind ∧ t.failPc = s.failPc) ∨
        t = { s with runState := .failed, failKind := t.failKind, failPc := s.pc })) ∧
    (exec (.halt f) s = .next t →
      t.config = s.config ∧ t.input = s.input ∧ t.output = s.output ∧ t.mem.size = s.mem.size ∧ t.pc = s.pc ∧
      t.failKind = s.failKind ∧ t.failPc = s.failPc ∧ ∀ x, t.cell x = s.cell x)

/-- R27, R31, R44: an instruction reads only its own words and its operands' cells: two states that differ elsewhere in memory
give the same next pc, run state, record and outputs, and each cell is either left as it was in both or written alike. -/
def Obligations.InstructionsReadOnlyTheirOperands : Prop :=
  ∀ (i : Instr) (s : State) (m : Memory), m.size = s.mem.size → readsAgree i s { s with mem := m } →
    ∃ t m', exec i s = .next t ∧ exec i { s with mem := m } = .next { t with mem := m' } ∧ m'.size = t.mem.size ∧
      ∀ x, (t.cell x = s.cell x ∧ m'.read? x = m.read? x) ∨ m'.read? x = t.cell x

/-! ### Memory (20_memory.md) -/

/-- R34: `MemWrite`: an invalid address fails; a valid one receives the word, the old value is lost, and nothing else changes
(R15: nor does N). The read is R33's. The third clause, that an instruction that fails leaves `M` unchanged, is R76 (derived in
the spec from R71, whose order of checks is the decision D7, log 13), said of the core's state, which R102 keeps out of a
failed run's result (D16, log 17). -/
def Obligations.MemWriteWritesOneCell : Prop :=
  ∀ (s : State) (a v : Int),
    (a < 0 ∨ (s.mem.size : Int) ≤ a → memWrite s a v = .error .addressOutOfBounds) ∧
    (0 ≤ a → a < (s.mem.size : Int) → ∃ t, memWrite s a v = .ok t ∧ memRead t a = .ok v ∧
      (∀ x, x ≠ a → memRead t x = memRead s x) ∧ t.mem.size = s.mem.size ∧ t = { s with mem := t.mem }) ∧
    (∀ (i : Instr) (t : State), s.runState ≠ .failed → exec i s = .next t → t.runState = .failed → t.mem = s.mem)

/-- R15, R29: the memory is "an ordered, mutable, fixed-length sequence": the model's sparse form refines an array of N words,
read by index, written by index, loaded from an image. -/
def Obligations.MemoryRefinesAnArray : Prop :=
  (∀ image : List Int, (Memory.ofImage image).toList = image) ∧
  (∀ m : Memory, m.toList.length = m.size) ∧
  (∀ (m : Memory) (a : Nat), m.read? (a : Int) = m.toList[a]?) ∧
  (∀ (m : Memory) (a : Nat) (v : Int), a < m.size → (m.write (a : Int) v).toList = m.toList.set a v) ∧
  (∀ m m' : Memory, m.wf = true → m'.wf = true → m.toList = m'.toList → m = m')

/-- R41, R42: a word an instruction writes at the address of the next instruction is the word the next fetch decodes, with
nothing in between, whether ADD, MULT or INPUT wrote it. -/
def Obligations.WrittenWordsAreFetchedNext : Prop :=
  ∀ (f : Fields) (s : State) (a b : Int) (j : Instr), s.runState = .running →
    (s.sourceValue f.m1 1 = some a → s.sourceValue f.m2 2 = some b → s.paramWord 3 = some ((s.pc : Int) + 4) →
      (s.pc : Int) + 4 < (s.mem.size : Int) →
      (s.config.width.fits (a + b) = true → decode s.config.priority (a + b) = .ok j →
        ∃ t, exec (.add f) s = .next t ∧ step t = exec j t) ∧
      (s.config.width.fits (a * b) = true → decode s.config.priority (a * b) = .ok j →
        ∃ t, exec (.mult f) s = .next t ∧ step t = exec j t)) ∧
    (s.paramWord 1 = some ((s.pc : Int) + 2) → (s.pc : Int) + 2 < (s.mem.size : Int) →
      decode s.config.priority s.input = .ok j → ∃ t, exec (.input f) s = .next t ∧ step t = exec j t)

/-! ### Failures and the end of a run (60_exceptions.md) -/

/-- R97: a failing step records the kind and its own pc, nothing else. That no other state element changes is R76 (derived in
the spec from R71) and R100: that pc is kept is the spec's decision D8 (log 14), and that M and OUT are kept is said of the
core's state, which R102 keeps out of a failed run's result (D16, log 17). -/
def Obligations.FailingStepsRecordKindAndPcOnly : Prop :=
  ∀ s t : State, s.runState = .running → step s = .next t → t.runState = .failed →
    t.failKind ≠ .noFailure ∧ t = { s with runState := .failed, failKind := t.failKind, failPc := s.pc }

/-- R98 (derived in the spec from the instruction rules): which instruction can raise which kind. -/
def Obligations.FailureKindsByInstruction : Prop :=
  ∀ (i : Instr) (s t : State), s.runState ≠ .failed → exec i s = .next t → t.runState = .failed →
    (t.failKind = .addressOutOfBounds ∨
      t.failKind = .arithmeticOverflow ∧ s.config.overflow = .fault ∧ ∃ f, i = .add f ∨ i = .mult f) ∧
    ∀ f, i ≠ .halt f

/-- R19: `state` changes only Running → Halted, by HALT, or Running → Failed; Halted and Failed are terminal. -/
def Obligations.RunStateTransitions : Prop :=
  ∀ s t : State, step s = .next t →
    (s.runState ≠ .running → t.runState = s.runState) ∧
    (t.runState = .halted → s.runState = .running →
      ∃ w f, s.cell s.pc = some w ∧ decode s.config.priority w = .ok (.halt f)) ∧
    (s.runState = .running → ∀ w f, s.cell s.pc = some w → decode s.config.priority w = .ok (.halt f) →
      t.runState = .halted)

/-- R20, R21: no instruction reads the failure record: a run goes the same whatever it held, until a failure writes it. -/
def Obligations.FailureRecordIsInvisibleToPrograms : Prop :=
  ∀ (s t : State) (k : FailKind) (p : Nat), s.runState = .running → step s = .next t →
    (t.runState = .failed → step { s with failKind := k, failPc := p } = .next t) ∧
    (t.runState ≠ .failed → step { s with failKind := k, failPc := p } = .next { t with failKind := k, failPc := p })

/-- R95: "After HALT no further step is taken", and the result is "the pair (`M[0..N−1]`, `OUT`) as they stand after the HALT
step"; the failure record is not part of it. (The unchanged state after the end is log 8.) -/
def Obligations.HaltedRunsGiveMemoryAndOutputs : Prop :=
  ∀ (f : Fields) (s : State), ∃ t, exec (.halt f) s = .next t ∧
    t.result = some (.halted s.mem.toList s.output) ∧ ∀ k : Nat, Host.Core.run Sys2Proof.core k t = .next t

/-- R102, R103: the result of a failed run is the pair (fail_kind, fail_pc), and nothing resumes it. (The unchanged state after
the end is log 8.) -/
def Obligations.FailedRunsGiveKindAndPc : Prop :=
  ∀ s t : State, s.runState = .running → step s = .next t → t.runState = .failed →
    t.result = some (.failed t.failKind s.pc) ∧ ∀ k : Nat, Host.Core.run Sys2Proof.core k t = .next t

/-- R79 (derived in the spec from R68, R77, R53): every run ends, within ⌈N/2⌉ + 1 steps from any state whatever. The steps
counted are the interface's: after the end they are idle and no steps of the engine (the model's choice, log 8), so a run that
ends earlier has fewer steps of the engine than the number given. -/
def Obligations.EveryRunEndsWithinTheBound : Prop :=
  ∀ s : State, ∃ t, Host.Core.run Sys2Proof.core ((s.mem.size + 1) / 2 + 1) s = .next t ∧ t.over ∧ t.result ≠ none

/-! ### Launch and invariant (10_state.md, 70_reset_and_hazards.md) -/

/-- R28, R114 (the record's values are the spec's decision D9, log 15): what launch leaves in every state element. -/
def Obligations.LaunchSetsEveryElement : Prop :=
  ∀ (cfg : Config) (image : List Int) (input : Int),
    (State.launch cfg image input).mem.size = image.length ∧
    (∀ a : Nat, (State.launch cfg image input).cell a = image[a]?) ∧
    (∀ a : Int, a < 0 → (State.launch cfg image input).cell a = none) ∧
    (State.launch cfg image input).pc = 0 ∧ (State.launch cfg image input).runState = .running ∧
    (State.launch cfg image input).failKind = .noFailure ∧ (State.launch cfg image input).failPc = 0 ∧
    (State.launch cfg image input).input = input ∧ (State.launch cfg image input).output = [] ∧
    (State.launch cfg image input).config = cfg

/-- R115, R122: a launch is refused while a run goes on, for an image word, an input or an N that does not fit (the spec's
decision D19, log 18), and for a width the model does not admit (less than 8 bits: R5's range, the model's inference, log 21);
otherwise it replaces all state, whatever was there (R116). -/
def Obligations.LaunchesAreAdmittedOrRefused : Prop :=
  ∀ (before : Option State) (cfg : Config) (image : List Int) (input : Int),
    ((∃ s, before = some s ∧ s.runState = .running) →
      hostLaunch before cfg image input = .refused .launchWhileRunning) ∧
    ((∀ s, before = some s → s.over) →
      (cfg.width.allowed = true ∧ cfg.width.admitsLength image.length = true ∧
          (∀ v ∈ image, cfg.width.fits v = true) ∧ cfg.width.fits input = true →
        hostLaunch before cfg image input = .next (State.launch cfg image input)) ∧
      (cfg.width.allowed = false ∨ cfg.width.admitsLength image.length = false ∨
          (∃ v ∈ image, cfg.width.fits v = false) ∨ cfg.width.fits input = false →
        hostLaunch before cfg image input = .refused .launchOutOfRange))

/-- R5, R6, R17, R20, R23: every admitted launch satisfies the invariant. Of what the invariant says, these are choices: the
canonical form of memory (the model's, log 3), the widths admitted (the model's inference, log 21), the record's values None and 0
before a failure (the spec's decision D9, log 15), pc kept at the end (D8, log 14) and the limit on N (D11, log 22). -/
def Obligations.LaunchEstablishesTheInvariant : Prop :=
  ∀ (cfg : Config) (image : List Int) (input : Int), launchAdmitted cfg image input = true →
    (State.launch cfg image input).Inv

/-- The state after reset satisfies the invariant, with its choices (log 3, log 14, log 15, log 21, log 22, as in
LaunchEstablishesTheInvariant); it is the launch of the empty image with input 0 and the default parameters (the model's choice,
log 4). -/
def Obligations.ResetSatisfiesTheInvariant : Prop :=
  State.reset.Inv ∧ State.reset = State.launch Config.specDefault [] 0

/-- R6, R15, R17, R20, R22, R23: every step keeps the invariant, from every state that has it. Of what the invariant says, these
are choices: the canonical form of memory (the model's, log 3), the widths admitted (the model's inference, log 21), the record's
values None and 0 before a failure (the spec's decision D9, log 15), pc kept at the end (D8, log 14) and the limit on N (D11,
log 22). -/
def Obligations.StepKeepsTheInvariant : Prop :=
  ∀ s t : State, s.Inv → step s = .next t → t.Inv

/-- R5, R15: the parameters and the memory's length N are fixed for the whole run. -/
def Obligations.ParametersAndLengthAreFixedForTheRun : Prop :=
  ∀ (k : Nat) (s t : State), Host.Core.run Sys2Proof.core k s = .next t →
    t.config = s.config ∧ t.mem.size = s.mem.size

/-- The model's load (log 5, log 6): an opcode-table word placed in a machine of 64-bit or unbounded words is the instruction
the very next step runs. -/
def Obligations.PlacedTableWordsRunNext : Prop :=
  ∀ (s : State) (nbits w : Nat) (i : Instr), (s.config.width = .bits 64 ∨ s.config.width = .unbounded) →
    decodeTableWord nbits w = some i → step (s.withFetchWord nbits w) = exec i (s.withFetchWord nbits w)
end

