-- ==== Sys2Proof/Laws/Assembly.lean ====
section
/-! SUPPORT. How disassembly reads an image: the head item, then the rest, whatever fuel is left. -/

namespace Sys2Proof.Machine

/-- Fuel beyond the number of words changes nothing. -/
theorem disassembleFrom_of_le {fuel : Nat} {image : List Int} (h : image.length ≤ fuel) :
    disassembleFrom fuel image = disassemble image := by
  have key : ∀ (n m : Nat) (ws : List Int), ws.length ≤ n → ws.length ≤ m →
      disassembleFrom n ws = disassembleFrom m ws := by
    intro n
    induction n with
    | zero =>
      intro m ws hn _
      obtain rfl := List.length_eq_zero_iff.mp (Nat.le_zero.mp hn)
      cases m <;> rfl
    | succ n ih =>
      intro m ws hn hm
      cases ws with
      | nil => cases m <;> rfl
      | cons w rest =>
        cases m with
        | zero => simp at hm
        | succ m =>
          simp only [List.length_cons, Nat.succ_le_succ_iff] at hn hm
          have hd : (rest.drop (disassembleHead w rest).2).length ≤ rest.length := by simp
          simp only [disassembleFrom, ih m _ (hd.trans hn) (hd.trans hm)]
  exact key _ _ _ h le_rfl

@[simp] theorem disassemble_nil : disassemble [] = [] := rfl

/-- An image is read as its head item and then the words after it (log 19). -/
theorem disassemble_cons (w : Int) (rest : List Int) :
    disassemble (w :: rest) =
      (disassembleHead w rest).1 :: disassemble (rest.drop (disassembleHead w rest).2) := by
  rw [← disassembleFrom_of_le (fuel := rest.length) (image := rest.drop _) (by simp)]
  rfl

/-- A word that does not decode is read as `.word` (R64). -/
theorem disassembleHead_of_error {w : Int} {k : FailKind} (h : decode Config.specDefault.priority w = .error k)
    (rest : List Int) : disassembleHead w rest = (.word (.num w), 0) := by
  simp only [disassembleHead, h]

end Sys2Proof.Machine
end

