-- ==== Sys2Proof/Laws/Decode.lean ====
section
/-! SUPPORT. The decoder's arithmetic as ordinary division, and what a decoded word says. -/

namespace Sys2Proof

theorem tdiv_of_nonneg {a : Int} (h : 0 ≤ a) (b : Int) : tdiv a b = a / b := by
  simp [tdiv, Int.tdiv_eq_ediv_of_nonneg h]

theorem tdiv_of_nonpos {a : Int} (h : a ≤ 0) (b : Int) : tdiv a b = -(-a / b) := by
  have := tdiv_of_nonneg (a := -a) (by omega) b
  simp only [tdiv, Int.neg_tdiv] at this
  simp only [tdiv]; omega

/-- R7: the remainder has the sign of the dividend or is 0. -/
theorem trem_of_nonneg {a : Int} (h : 0 ≤ a) (b : Int) : trem a b = a % b := by
  rw [trem, tdiv_of_nonneg h, Int.emod_def]

theorem trem_of_nonpos {a : Int} (h : a ≤ 0) (b : Int) : trem a b = -(-a % b) := by
  rw [trem, tdiv_of_nonpos h, Int.emod_def]; ring

/-- The digit fields of a non-negative word (R47). -/
theorem splitWord_of_nonneg {w : Int} (h : 0 ≤ w) :
    splitWord w = { opcode := w % 100, mode1 := w / 100 % 10, mode2 := w / 100 / 10 % 10,
                    mode3 := w / 100 / 10 / 10 % 10, quotient := w / 100 / 10 / 10 / 10 } := by
  have h1 : 0 ≤ w / 100 := by omega
  have h2 : 0 ≤ w / 100 / 10 := by omega
  have h3 : 0 ≤ w / 100 / 10 / 10 := by omega
  simp only [splitWord, tdiv_of_nonneg h, tdiv_of_nonneg h1, tdiv_of_nonneg h2, tdiv_of_nonneg h3, trem_of_nonneg h,
    trem_of_nonneg h1, trem_of_nonneg h2, trem_of_nonneg h3]

/-- The digit fields of a non-positive word: each is 0 or negative (R49, R50). -/
theorem splitWord_of_nonpos {w : Int} (h : w ≤ 0) :
    splitWord w = { opcode := -(-w % 100), mode1 := -(-w / 100 % 10), mode2 := -(-w / 100 / 10 % 10),
                    mode3 := -(-w / 100 / 10 / 10 % 10), quotient := -(-w / 100 / 10 / 10 / 10) } := by
  have h1 : -(-w / 100) ≤ 0 := by omega
  have h2 : -(-w / 100 / 10) ≤ 0 := by omega
  have h3 : -(-w / 100 / 10 / 10) ≤ 0 := by omega
  simp only [splitWord, tdiv_of_nonpos h, tdiv_of_nonpos h1, tdiv_of_nonpos h2, tdiv_of_nonpos h3, trem_of_nonpos h,
    trem_of_nonpos h1, trem_of_nonpos h2, trem_of_nonpos h3, Int.neg_neg]

/-- The decoder's repeated division gives the digit fields of R47. -/
theorem splitWord_eq_digits (w : Int) :
    splitWord w = { opcode := trem w 100, mode1 := digit 2 w, mode2 := digit 3 w, mode3 := digit 4 w,
                    quotient := tdiv w 100000 } := by
  simp only [digit]
  rcases le_total 0 w with h | h
  · have hd : ∀ b, 0 ≤ b → 0 ≤ w / b := fun b hb => Int.ediv_nonneg h hb
    simp only [splitWord_of_nonneg h, trem_of_nonneg h, tdiv_of_nonneg h, Digits.mk.injEq]
    norm_num
    rw [trem_of_nonneg (hd _ (by norm_num)), trem_of_nonneg (hd _ (by norm_num)), trem_of_nonneg (hd _ (by norm_num))]
    omega
  · have hd : ∀ b, 0 ≤ b → -(-w / b) ≤ 0 := fun b hb => by have := Int.ediv_nonneg (a := -w) (by omega) hb; omega
    simp only [splitWord_of_nonpos h, trem_of_nonpos h, tdiv_of_nonpos h, Digits.mk.injEq]
    norm_num
    rw [trem_of_nonpos (hd _ (by norm_num)), trem_of_nonpos (hd _ (by norm_num)), trem_of_nonpos (hd _ (by norm_num))]
    omega

/-- A memory word of a table word lies in the range of its width. -/
theorem signedWord_range {bits : Nat} (hb : 1 ≤ bits) (w : Nat) :
    -((2 ^ (bits - 1) : Nat) : Int) ≤ signedWord bits w ∧ signedWord bits w ≤ ((2 ^ (bits - 1) : Nat) : Int) - 1 := by
  have hp : 2 ^ bits = 2 * 2 ^ (bits - 1) := by rw [← Nat.pow_succ']; congr 1; omega
  have hlt := Nat.mod_lt w (Nat.two_pow_pos bits)
  simp only [signedWord]
  split <;> omega

@[simp] theorem Mode.ofDigit_digit (m : Mode) : Mode.ofDigit m.digit = some m := by cases m <;> rfl

theorem Mode.ofDigit_eq_some {d : Int} {m : Mode} : Mode.ofDigit d = some m ↔ d = m.digit := by
  simp only [Mode.ofDigit]
  cases m <;> simp only [Mode.digit] <;> split <;> (try split) <;> simp_all

theorem Mode.ofDigit_eq_none {d : Int} : Mode.ofDigit d = none ↔ d ≠ 0 ∧ d ≠ 1 := by
  simp only [Mode.ofDigit]; split <;> (try split) <;> simp_all

theorem fieldsOf_eq_some {d : Digits} {f : Fields} :
    fieldsOf d = some f ↔
      d.mode1 = f.m1.digit ∧ d.mode2 = f.m2.digit ∧ d.mode3 = f.m3.digit ∧ d.quotient.toNat = f.high := by
  obtain ⟨m1, m2, m3, high⟩ := f
  simp only [fieldsOf, ← Mode.ofDigit_eq_some]
  split <;> simp_all

theorem fieldsOf_eq_none {d : Digits} :
    fieldsOf d = none ↔ (d.mode1 ≠ 0 ∧ d.mode1 ≠ 1) ∨ (d.mode2 ≠ 0 ∧ d.mode2 ≠ 1) ∨ (d.mode3 ≠ 0 ∧ d.mode3 ≠ 1) := by
  simp only [← Mode.ofDigit_eq_none, fieldsOf]
  cases Mode.ofDigit d.mode1 <;> cases Mode.ofDigit d.mode2 <;> cases Mode.ofDigit d.mode3 <;> simp

theorem instrOf_eq_some {c : Int} {f : Fields} {i : Instr} : instrOf c f = some i ↔ i.opcode = c ∧ i.fields = f := by
  simp only [instrOf]
  cases i <;> simp only [Instr.opcode, Instr.fields] <;> (repeat' split) <;> simp_all [eq_comm]

theorem instrOf_eq_none {c : Int} {f : Fields} : instrOf c f = none ↔ opcodeLegal c = false := by
  simp only [instrOf, opcodeLegal]
  (repeat' split) <;> simp_all

/-- What a word that decodes is: its digits are the instruction's opcode, modes and quotient (R47, R60). -/
theorem decode_eq_ok {p : DecodePriority} {w : Int} {i : Instr} :
    decode p w = .ok i ↔ (splitWord w).opcode = i.opcode ∧ fieldsOf (splitWord w) = some i.fields := by
  simp only [decode]
  constructor
  · intro h
    split at h
    · split at h <;> (try split at h) <;> cases h
    · next f hf =>
      split at h
      · next j hj =>
        obtain rfl : j = i := by injection h
        obtain ⟨ho, rfl⟩ := instrOf_eq_some.mp hj
        exact ⟨ho.symm, hf⟩
      · cases h
  · rintro ⟨ho, hf⟩
    rw [hf, ho]
    simp only [instrOf_eq_some.mpr ⟨rfl, rfl⟩]

/-- When a word is refused, and by which kind (R55, R57, R58). -/
theorem decode_eq_error {p : DecodePriority} {w : Int} {k : FailKind} :
    decode p w = .error k ↔
      (fieldsOf (splitWord w) = none ∧ (p = .modeFirst ∨ opcodeLegal (splitWord w).opcode = true) ∧ k = .invalidMode) ∨
      (opcodeLegal (splitWord w).opcode = false ∧ (p = .opcodeFirst ∨ fieldsOf (splitWord w) ≠ none) ∧
        k = .invalidOpcode) := by
  simp only [decode]
  cases hf : fieldsOf (splitWord w) with
  | none => cases p <;> cases ho : opcodeLegal (splitWord w).opcode <;> simp [eq_comm]
  | some f =>
    cases hi : instrOf (splitWord w).opcode f with
    | none => simp [instrOf_eq_none.mp hi, hi, eq_comm]
    | some i =>
      have : opcodeLegal (splitWord w).opcode ≠ false := fun h => by simp [instrOf_eq_none.mpr h] at hi
      simp [this, hi]

end Sys2Proof
end

