-- ==== Sys2Proof/Laws/Memory.lean ====
section
/-! SUPPORT. Memory: what a read gives after a write and after a load, and that every operation keeps the canonical form. -/

namespace Sys2Proof.Machine

/-! ### Lists of cells -/

theorem lookupCell_filter_ne (cells : List (Nat × Int)) (a x : Nat) :
    lookupCell (cells.filter (fun c => c.1 ≠ a)) x = if x = a then Memory.unlisted else lookupCell cells x := by
  induction cells with
  | nil => simp [lookupCell]
  | cons c rest ih =>
    obtain ⟨b, v⟩ := c
    by_cases hb : b = a <;> by_cases hx : x = a <;> simp_all [lookupCell]
    · exact fun h => absurd h.symm hx

theorem lookupCell_insertCell {cells : List (Nat × Int)} {a : Nat} (h : ∀ c ∈ cells, c.1 ≠ a) (v : Int) (x : Nat) :
    lookupCell (insertCell a v cells) x = if x = a then v else lookupCell cells x := by
  induction cells with
  | nil => simp [insertCell, lookupCell, eq_comm]
  | cons c rest ih =>
    obtain ⟨b, u⟩ := c
    have hb : b ≠ a := h (b, u) (by simp)
    have ih := ih fun c hc => h c (by simp [hc])
    simp only [insertCell]
    split
    · simp [lookupCell, eq_comm]
    · simp only [lookupCell, ih]
      by_cases hx : b = x
      · simp [hx, hx ▸ hb]
      · simp [hx]

theorem lookupCell_storeCell (cells : List (Nat × Int)) (a : Nat) (v : Int) (x : Nat) :
    lookupCell (storeCell a v cells) x = if x = a then v else lookupCell cells x := by
  have hne : ∀ c ∈ cells.filter (fun c => c.1 ≠ a), c.1 ≠ a := by simp
  simp only [storeCell]
  split
  · next hv => rw [lookupCell_filter_ne, hv]
  · rw [lookupCell_insertCell hne, lookupCell_filter_ne]
    split <;> rfl

theorem lookupCell_cellsFrom (image : List Int) (k x : Nat) :
    lookupCell (cellsFrom k image) x = if k ≤ x then image.getD (x - k) Memory.unlisted else Memory.unlisted := by
  induction image generalizing k with
  | nil => simp [cellsFrom, lookupCell]
  | cons v rest ih =>
    have key : lookupCell (cellsFrom k (v :: rest)) x =
        if k = x then v else lookupCell (cellsFrom (k + 1) rest) x := by
      simp only [cellsFrom]
      split
      · next hv =>
        by_cases hx : k = x
        · subst hx; simp [ih, hv]
        · simp [hx]
      · simp [lookupCell]
    rw [key, ih]
    by_cases hx : k = x
    · subst hx; simp
    · by_cases hk : k ≤ x
      · have : x - k = (x - (k + 1)) + 1 := by omega
        simp [hx, hk, this, show k + 1 ≤ x by omega]
      · simp [hx, hk, show ¬ k + 1 ≤ x by omega]

theorem mem_insertCell {cells : List (Nat × Int)} {a : Nat} {v : Int} {c : Nat × Int} :
    c ∈ insertCell a v cells ↔ c = (a, v) ∨ c ∈ cells := by
  induction cells with
  | nil => simp [insertCell]
  | cons e rest ih =>
    obtain ⟨b, u⟩ := e
    simp only [insertCell]
    split
    · simp
    · simp only [List.mem_cons, ih]
      exact or_left_comm

theorem insertCell_rising {cells : List (Nat × Int)} {a : Nat} {v : Int}
    (h : cells.Pairwise (fun c c' => c.1 < c'.1)) (hne : ∀ c ∈ cells, c.1 ≠ a) :
    (insertCell a v cells).Pairwise (fun c c' => c.1 < c'.1) := by
  induction cells with
  | nil => simp [insertCell]
  | cons e rest ih =>
    obtain ⟨b, u⟩ := e
    have hb : b ≠ a := hne (b, u) (by simp)
    obtain ⟨hlt, hrest⟩ := List.pairwise_cons.mp h
    simp only [insertCell]
    split
    · next hab =>
      refine List.pairwise_cons.mpr ⟨fun c hc => ?_, h⟩
      rcases List.mem_cons.mp hc with rfl | hc
      · exact hab
      · exact lt_trans hab (hlt c hc)
    · next hab =>
      refine List.pairwise_cons.mpr ⟨fun c hc => ?_, ih hrest fun c hc => hne c (by simp [hc])⟩
      rcases mem_insertCell.mp hc with rfl | hc
      · simp only; omega
      · exact hlt c hc

/-! ### The canonical form -/

theorem Memory.wf_iff (m : Memory) :
    m.wf = true ↔ m.cells.Pairwise (fun c c' => c.1 < c'.1) ∧ ∀ c ∈ m.cells, c.1 < m.size ∧ c.2 ≠ Memory.unlisted := by
  simp [Memory.wf]

theorem Memory.wf_empty (n : Nat) : ({ size := n, cells := [] } : Memory).wf = true := by simp [Memory.wf_iff]

/-- A write to a valid address keeps the canonical form. -/
theorem Memory.wf_write {m : Memory} (h : m.wf = true) {a : Int} (ha : m.valid a = true) (v : Int) :
    (m.write a v).wf = true := by
  simp only [Memory.valid, decide_eq_true_eq] at ha
  obtain ⟨hr, hc⟩ := (Memory.wf_iff m).mp h
  have hfr := hr.filter (fun c => decide (c.1 ≠ a.toNat))
  refine (Memory.wf_iff _).mpr ?_
  simp only [Memory.write, storeCell]
  split
  · exact ⟨hfr, fun c hm => hc c (List.mem_filter.mp hm).1⟩
  · next hv =>
    refine ⟨insertCell_rising hfr (by simp), fun c hm => ?_⟩
    rcases mem_insertCell.mp hm with rfl | hm
    · exact ⟨by simp only; omega, hv⟩
    · exact hc c (List.mem_filter.mp hm).1

theorem cellsFrom_form (image : List Int) (k : Nat) :
    (cellsFrom k image).Pairwise (fun c c' => c.1 < c'.1) ∧
      ∀ c ∈ cellsFrom k image, k ≤ c.1 ∧ c.1 < k + image.length ∧ c.2 ≠ Memory.unlisted := by
  induction image generalizing k with
  | nil => simp [cellsFrom]
  | cons v rest ih =>
    obtain ⟨hp, hc⟩ := ih (k + 1)
    simp only [cellsFrom, List.length_cons]
    split
    · exact ⟨hp, fun c hm => by have := hc c hm; exact ⟨by omega, by omega, this.2.2⟩⟩
    · next hv =>
      refine ⟨List.pairwise_cons.mpr ⟨fun c hm => by have := hc c hm; simp only; omega, hp⟩, fun c hm => ?_⟩
      rcases List.mem_cons.mp hm with rfl | hm
      · exact ⟨by simp, by simp, hv⟩
      · have := hc c hm
        exact ⟨by omega, by omega, this.2.2⟩

/-- A loaded image is in canonical form. -/
theorem Memory.wf_ofImage (image : List Int) : (Memory.ofImage image).wf = true := by
  obtain ⟨hp, hc⟩ := cellsFrom_form image 0
  exact (Memory.wf_iff _).mpr ⟨hp, fun c hm => by have := hc c hm; simp only [Memory.ofImage]; exact ⟨by omega, this.2.2⟩⟩

/-- A memory made longer is in canonical form. -/
theorem Memory.wf_grow {m : Memory} (h : m.wf = true) (n : Nat) : (m.grow n).wf = true := by
  obtain ⟨hr, hc⟩ := (Memory.wf_iff m).mp h
  exact (Memory.wf_iff _).mpr ⟨hr, fun c hm => ⟨lt_of_lt_of_le (hc c hm).1 (le_max_left _ _), (hc c hm).2⟩⟩

/-! ### Length, bounds and reads -/

@[simp] theorem Memory.write_size (m : Memory) (a : Int) (v : Int) : (m.write a v).size = m.size := rfl

@[simp] theorem Memory.write_valid (m : Memory) (a : Int) (v : Int) (x : Int) : (m.write a v).valid x = m.valid x := rfl

@[simp] theorem Memory.ofImage_size (image : List Int) : (Memory.ofImage image).size = image.length := rfl

theorem Memory.valid_iff (m : Memory) (a : Int) : m.valid a = true ↔ 0 ≤ a ∧ a < (m.size : Int) := by
  simp [Memory.valid]

/-- Placing words one after another keeps the canonical form, if they all lie in memory. -/
theorem Memory.wf_writeAll {m : Memory} (h : m.wf = true) (a : Nat) (words : List Int)
    (ha : a + words.length ≤ m.size) : (m.writeAll a words).wf = true := by
  induction words generalizing m a with
  | nil => exact h
  | cons v rest ih =>
    simp only [List.length_cons] at ha
    refine ih (Memory.wf_write h ((Memory.valid_iff _ _).mpr ⟨by omega, by omega⟩) v) (a + 1) ?_
    simp only [Memory.write_size]; omega

theorem Memory.read?_isSome (m : Memory) (a : Int) : (m.read? a).isSome = m.valid a := by
  simp only [Memory.read?]; split <;> simp_all

theorem Memory.read?_eq_none_iff (m : Memory) (a : Int) : m.read? a = none ↔ m.valid a = false := by
  rw [← Memory.read?_isSome]; simp

theorem Memory.valid_of_read? {m : Memory} {a : Int} {v : Int} (h : m.read? a = some v) : m.valid a = true := by
  rw [← Memory.read?_isSome, h]; rfl

/-- The one law of memory: a write to a valid address changes what that address holds, and nothing else. -/
theorem Memory.read?_write {m : Memory} {a : Int} (ha : m.valid a = true) (v : Int) (x : Int) :
    (m.write a v).read? x = if x = a then some v else m.read? x := by
  simp only [Memory.read?, Memory.write_valid]
  by_cases hx : x = a
  · subst hx; simp [ha, Memory.write, lookupCell_storeCell]
  · simp only [hx, if_false]
    by_cases hv : m.valid x = true
    · have h1 := (Memory.valid_iff _ _).mp ha
      have h2 := (Memory.valid_iff _ _).mp hv
      simp [hv, Memory.write, lookupCell_storeCell, show x.toNat ≠ a.toNat by omega]
    · simp [hv]

/-- A load gives each address the image's word. -/
theorem Memory.read?_ofImage (image : List Int) (a : Nat) : (Memory.ofImage image).read? (a : Int) = image[a]? := by
  simp only [Memory.read?, Memory.valid, Memory.ofImage, lookupCell_cellsFrom]
  by_cases h : a < image.length
  · simp [h]
  · simp [h]

end Sys2Proof.Machine
end

