-- ==== Sys2Proof/Laws/State.lean ====
section
/-! SUPPORT. What each update of the state does to each field. -/

namespace Sys2Proof.Machine

/-! ### `State.raise` -/

@[simp] theorem State.raise_config (k : FailKind) (s : State) : (s.raise k).config = s.config := rfl
@[simp] theorem State.raise_mem (k : FailKind) (s : State) : (s.raise k).mem = s.mem := rfl
@[simp] theorem State.raise_pc (k : FailKind) (s : State) : (s.raise k).pc = s.pc := rfl
@[simp] theorem State.raise_runState (k : FailKind) (s : State) : (s.raise k).runState = .failed := rfl
@[simp] theorem State.raise_failKind (k : FailKind) (s : State) : (s.raise k).failKind = k := rfl
@[simp] theorem State.raise_failPc (k : FailKind) (s : State) : (s.raise k).failPc = s.pc := rfl
@[simp] theorem State.raise_input (k : FailKind) (s : State) : (s.raise k).input = s.input := rfl
@[simp] theorem State.raise_output (k : FailKind) (s : State) : (s.raise k).output = s.output := rfl

/-! ### `State.advance` -/

@[simp] theorem State.advance_config (n : Nat) (s : State) : (s.advance n).config = s.config := rfl
@[simp] theorem State.advance_mem (n : Nat) (s : State) : (s.advance n).mem = s.mem := rfl
@[simp] theorem State.advance_pc (n : Nat) (s : State) : (s.advance n).pc = s.pc + n := rfl
@[simp] theorem State.advance_runState (n : Nat) (s : State) : (s.advance n).runState = s.runState := rfl
@[simp] theorem State.advance_failKind (n : Nat) (s : State) : (s.advance n).failKind = s.failKind := rfl
@[simp] theorem State.advance_failPc (n : Nat) (s : State) : (s.advance n).failPc = s.failPc := rfl
@[simp] theorem State.advance_input (n : Nat) (s : State) : (s.advance n).input = s.input := rfl
@[simp] theorem State.advance_output (n : Nat) (s : State) : (s.advance n).output = s.output := rfl

/-! ### `State.emit` -/

@[simp] theorem State.emit_config (v : Int) (s : State) : (s.emit v).config = s.config := rfl
@[simp] theorem State.emit_mem (v : Int) (s : State) : (s.emit v).mem = s.mem := rfl
@[simp] theorem State.emit_pc (v : Int) (s : State) : (s.emit v).pc = s.pc := rfl
@[simp] theorem State.emit_runState (v : Int) (s : State) : (s.emit v).runState = s.runState := rfl
@[simp] theorem State.emit_failKind (v : Int) (s : State) : (s.emit v).failKind = s.failKind := rfl
@[simp] theorem State.emit_failPc (v : Int) (s : State) : (s.emit v).failPc = s.failPc := rfl
@[simp] theorem State.emit_input (v : Int) (s : State) : (s.emit v).input = s.input := rfl
@[simp] theorem State.emit_output (v : Int) (s : State) : (s.emit v).output = s.output ++ [v] := rfl

/-! ### `State.halt` -/

@[simp] theorem State.halt_config (s : State) : (s.halt).config = s.config := rfl
@[simp] theorem State.halt_mem (s : State) : (s.halt).mem = s.mem := rfl
@[simp] theorem State.halt_pc (s : State) : (s.halt).pc = s.pc := rfl
@[simp] theorem State.halt_runState (s : State) : (s.halt).runState = .halted := rfl
@[simp] theorem State.halt_failKind (s : State) : (s.halt).failKind = s.failKind := rfl
@[simp] theorem State.halt_failPc (s : State) : (s.halt).failPc = s.failPc := rfl
@[simp] theorem State.halt_input (s : State) : (s.halt).input = s.input := rfl
@[simp] theorem State.halt_output (s : State) : (s.halt).output = s.output := rfl

/-! ### `State.withMem` -/

@[simp] theorem State.withMem_config (m : Memory) (s : State) : (s.withMem m).config = s.config := rfl
@[simp] theorem State.withMem_mem (m : Memory) (s : State) : (s.withMem m).mem = m := rfl
@[simp] theorem State.withMem_pc (m : Memory) (s : State) : (s.withMem m).pc = s.pc := rfl
@[simp] theorem State.withMem_runState (m : Memory) (s : State) : (s.withMem m).runState = s.runState := rfl
@[simp] theorem State.withMem_failKind (m : Memory) (s : State) : (s.withMem m).failKind = s.failKind := rfl
@[simp] theorem State.withMem_failPc (m : Memory) (s : State) : (s.withMem m).failPc = s.failPc := rfl
@[simp] theorem State.withMem_input (m : Memory) (s : State) : (s.withMem m).input = s.input := rfl
@[simp] theorem State.withMem_output (m : Memory) (s : State) : (s.withMem m).output = s.output := rfl

end Sys2Proof.Machine
end

