-- ==== Sys2Proof/Laws/Ops.lean ====
section
/-! SUPPORT. One lemma for each shared operation and each instruction body, saying once what it can do; then the same for exec
and step. Provers cite these instead of unfolding. -/

namespace Sys2Proof.Machine

theorem bind_eq_ok {α β : Type} {x : Except FailKind α} {f : α → Except FailKind β} {t : β} :
    (x >>= f) = .ok t ↔ ∃ a, x = .ok a ∧ f a = .ok t := by
  cases x <;> simp [bind, Except.bind]

theorem bind_eq_error {α β : Type} {x : Except FailKind α} {f : α → Except FailKind β} {k : FailKind} :
    (x >>= f) = .error k ↔ x = .error k ∨ ∃ a, x = .ok a ∧ f a = .error k := by
  cases x <;> simp [bind, Except.bind]

/-! ### Reading cells -/

theorem State.cell_eq_none_iff {s : State} {a : Int} : s.cell a = none ↔ a < 0 ∨ (s.mem.size : Int) ≤ a := by
  rw [State.cell, Memory.read?_eq_none_iff, ← Bool.not_eq_true, Memory.valid_iff]; omega

@[simp] theorem State.raise_cell (k : FailKind) (s : State) (x : Int) : (s.raise k).cell x = s.cell x := rfl
@[simp] theorem State.advance_cell (n : Nat) (s : State) (x : Int) : (s.advance n).cell x = s.cell x := rfl
@[simp] theorem State.emit_cell (v : Int) (s : State) (x : Int) : (s.emit v).cell x = s.cell x := rfl
@[simp] theorem State.halt_cell (s : State) (x : Int) : s.halt.cell x = s.cell x := rfl
@[simp] theorem State.withMem_cell (m : Memory) (s : State) (x : Int) : (s.withMem m).cell x = m.read? x := rfl

/-! ### Access primitives -/

theorem memRead_eq_ok {s : State} {a v : Int} : memRead s a = .ok v ↔ s.cell a = some v := by
  simp only [memRead, State.cell]; split <;> simp_all

theorem memRead_eq_error {s : State} {a : Int} {k : FailKind} :
    memRead s a = .error k ↔ s.cell a = none ∧ k = .addressOutOfBounds := by
  simp only [memRead, State.cell]
  cases s.mem.read? a <;> simp [eq_comm]

theorem memWrite_eq_ok {s t : State} {a v : Int} :
    memWrite s a v = .ok t ↔ s.mem.valid a = true ∧ t = s.withMem (s.mem.write a v) := by
  simp only [memWrite]
  cases s.mem.valid a <;> simp
  exact eq_comm

theorem memWrite_eq_error {s : State} {a v : Int} {k : FailKind} :
    memWrite s a v = .error k ↔ s.mem.valid a = false ∧ k = .addressOutOfBounds := by
  simp only [memWrite]
  cases s.mem.valid a <;> simp
  exact eq_comm

theorem fetchInstr_eq_ok {s : State} {i : Instr} :
    fetchInstr s = .ok i ↔ ∃ w, s.cell s.pc = some w ∧ decode s.config.priority w = .ok i := by
  simp only [fetchInstr]
  cases h : memRead s s.pc with
  | ok w => simp [memRead_eq_ok.mp h]
  | error k => simp [(memRead_eq_error.mp h).1]

theorem fetchInstr_eq_error {s : State} {k : FailKind} :
    fetchInstr s = .error k ↔
      (s.cell s.pc = none ∧ k = .addressOutOfBounds) ∨
      ∃ w, s.cell s.pc = some w ∧ decode s.config.priority w = .error k := by
  simp only [fetchInstr]
  cases h : memRead s s.pc with
  | ok w => simp [memRead_eq_ok.mp h]
  | error j => obtain ⟨hc, rfl⟩ := memRead_eq_error.mp h; simp [hc, eq_comm]

/-! ### Operands -/

theorem fetchParam_eq_ok {s : State} {i : Nat} {v : Int} : fetchParam s i = .ok v ↔ s.paramWord i = some v :=
  memRead_eq_ok

theorem fetchParam_eq_error {s : State} {i : Nat} {k : FailKind} :
    fetchParam s i = .error k ↔ s.paramWord i = none ∧ k = .addressOutOfBounds := memRead_eq_error

theorem resolve_eq_ok {s : State} {m : Mode} {raw v : Int} : resolve s m raw = .ok v ↔ s.operandOf m raw = some v := by
  cases m
  · exact memRead_eq_ok
  · simp [resolve, State.operandOf]

theorem resolve_eq_error {s : State} {m : Mode} {raw : Int} {k : FailKind} :
    resolve s m raw = .error k ↔ s.operandOf m raw = none ∧ k = .addressOutOfBounds := by
  cases m
  · exact memRead_eq_error
  · simp [resolve, State.operandOf]

theorem source_eq_ok {s : State} {m : Mode} {i : Nat} {v : Int} : source s m i = .ok v ↔ s.sourceValue m i = some v := by
  simp only [source, bind_eq_ok, fetchParam_eq_ok, resolve_eq_ok, State.sourceValue, Option.bind_eq_some_iff]

theorem source_eq_error {s : State} {m : Mode} {i : Nat} {k : FailKind} :
    source s m i = .error k ↔ s.sourceValue m i = none ∧ k = .addressOutOfBounds := by
  simp only [source, bind_eq_error, fetchParam_eq_ok, fetchParam_eq_error, resolve_eq_error, State.sourceValue]
  cases s.paramWord i <;> simp

theorem destination_eq_ok {s : State} {i : Nat} {d : Int} :
    destination s i = .ok d ↔ s.paramWord i = some d ∧ s.mem.valid d = true := by
  simp only [destination, bind_eq_ok, fetchParam_eq_ok]
  constructor
  · rintro ⟨a, ha, h⟩
    split at h
    · next hv => cases h; exact ⟨ha, hv⟩
    · cases h
  · rintro ⟨ha, hv⟩
    exact ⟨d, ha, by simp [hv]⟩

theorem destination_eq_error {s : State} {i : Nat} {k : FailKind} :
    destination s i = .error k ↔
      (∀ d, s.paramWord i = some d → s.mem.valid d = false) ∧ k = .addressOutOfBounds := by
  simp only [destination, bind_eq_error, fetchParam_eq_ok, fetchParam_eq_error]
  cases s.paramWord i with
  | none => simp
  | some d =>
    cases h : s.mem.valid d <;> simp [h]
    exact eq_comm

/-! ### The arithmetic unit -/

theorem arith_of_fits {cfg : Config} {x : Int} (h : cfg.width.fits x = true) : arith cfg x = .ok x := by simp [arith, h]

theorem arith_eq_ok {cfg : Config} {x v : Int} :
    arith cfg x = .ok v ↔ (cfg.width.fits x = true ∧ v = x) ∨
      (cfg.width.fits x = false ∧ cfg.overflow = .wrap ∧ v = wrapTo cfg.width x) := by
  simp only [arith]
  cases h : cfg.width.fits x <;> cases h' : cfg.overflow <;> simp [eq_comm]

theorem arith_eq_error {cfg : Config} {x : Int} {k : FailKind} :
    arith cfg x = .error k ↔ cfg.width.fits x = false ∧ cfg.overflow = .fault ∧ k = .arithmeticOverflow := by
  simp only [arith]
  cases h : cfg.width.fits x <;> cases h' : cfg.overflow <;> simp [eq_comm]

theorem fits_zero (w : WordWidth) : w.fits 0 = true := by
  cases w with
  | unbounded => rfl
  | bits w =>
    have : 0 < 2 ^ (w - 1) := Nat.two_pow_pos _
    simp only [WordWidth.fits, decide_eq_true_eq]
    omega

/-- A wrapped value is a word (R8). -/
theorem fits_wrapTo {w : WordWidth} (hw : w.allowed = true) (x : Int) : w.fits (wrapTo w x) = true := by
  cases w with
  | unbounded => rfl
  | bits w =>
    simp only [WordWidth.allowed, decide_eq_true_eq] at hw
    have hp : 2 ^ w = 2 * 2 ^ (w - 1) := by rw [← Nat.pow_succ']; congr 1; omega
    have hpos : 0 < 2 ^ (w - 1) := Nat.two_pow_pos _
    have h0 := Int.emod_nonneg x (b := ((2 ^ w : Nat) : Int)) (by omega)
    have h1 := Int.emod_lt_of_pos x (b := ((2 ^ w : Nat) : Int)) (by omega)
    simp only [wrapTo, WordWidth.fits]
    split <;> exact decide_eq_true ⟨by omega, by omega⟩

theorem fits_arith {cfg : Config} {x v : Int} (hw : cfg.width.allowed = true) (h : arith cfg x = .ok v) :
    cfg.width.fits v = true := by
  rcases arith_eq_ok.mp h with ⟨hf, rfl⟩ | ⟨-, -, rfl⟩
  · exact hf
  · exact fits_wrapTo hw x

/-! ### The bodies -/

theorem arithBody_eq_ok {op : AluOp} {f : Fields} {s t : State} :
    arithBody op f s = .ok t ↔ ∃ a b d v, s.sourceValue f.m1 1 = some a ∧ s.sourceValue f.m2 2 = some b ∧
      s.paramWord 3 = some d ∧ s.mem.valid d = true ∧ arith s.config (aluExact op a b) = .ok v ∧
      t = (s.withMem (s.mem.write d v)).advance 4 := by
  simp only [arithBody, bind_eq_ok, source_eq_ok, destination_eq_ok, memWrite_eq_ok, Except.ok.injEq]
  constructor
  · rintro ⟨a, ha, b, hb, d, ⟨hd, hv⟩, v, hr, _, ⟨-, rfl⟩, rfl⟩
    exact ⟨a, b, d, v, ha, hb, hd, hv, hr, rfl⟩
  · rintro ⟨a, b, d, v, ha, hb, hd, hv, hr, rfl⟩
    exact ⟨a, ha, b, hb, d, ⟨hd, hv⟩, v, hr, _, ⟨hv, rfl⟩, rfl⟩

/-- ADD and MULT fail on an address, or on an overflow once every address is good (R99). -/
theorem arithBody_eq_error {op : AluOp} {f : Fields} {s : State} {k : FailKind} :
    arithBody op f s = .error k ↔
      ((s.sourceValue f.m1 1 = none ∨ s.sourceValue f.m2 2 = none ∨
          ∀ d, s.paramWord 3 = some d → s.mem.valid d = false) ∧ k = .addressOutOfBounds) ∨
      ∃ a b d, s.sourceValue f.m1 1 = some a ∧ s.sourceValue f.m2 2 = some b ∧ s.paramWord 3 = some d ∧
        s.mem.valid d = true ∧ s.config.width.fits (aluExact op a b) = false ∧ s.config.overflow = .fault ∧
        k = .arithmeticOverflow := by
  simp only [arithBody, bind_eq_error, source_eq_ok, source_eq_error, destination_eq_ok, destination_eq_error,
    arith_eq_error, memWrite_eq_error]
  cases s.sourceValue f.m1 1 with
  | none => simp
  | some a =>
    cases s.sourceValue f.m2 2 with
    | none => simp
    | some b =>
      cases s.paramWord 3 with
      | none => simp
      | some d => cases h : s.mem.valid d <;> simp [h]

theorem inputBody_eq_ok {s t : State} :
    inputBody s = .ok t ↔ ∃ d, s.paramWord 1 = some d ∧ s.mem.valid d = true ∧
      t = (s.withMem (s.mem.write d s.input)).advance 2 := by
  simp only [inputBody, bind_eq_ok, destination_eq_ok, memWrite_eq_ok, Except.ok.injEq]
  constructor
  · rintro ⟨d, ⟨hd, hv⟩, _, ⟨-, rfl⟩, rfl⟩; exact ⟨d, hd, hv, rfl⟩
  · rintro ⟨d, hd, hv, rfl⟩; exact ⟨d, ⟨hd, hv⟩, _, ⟨hv, rfl⟩, rfl⟩

theorem inputBody_eq_error {s : State} {k : FailKind} :
    inputBody s = .error k ↔ (∀ d, s.paramWord 1 = some d → s.mem.valid d = false) ∧ k = .addressOutOfBounds := by
  simp only [inputBody, bind_eq_error, destination_eq_ok, destination_eq_error, memWrite_eq_error]
  cases s.paramWord 1 with
  | none => simp
  | some d => cases h : s.mem.valid d <;> simp [h]

theorem outputBody_eq_ok {f : Fields} {s t : State} :
    outputBody f s = .ok t ↔ ∃ a, s.sourceValue f.m1 1 = some a ∧ t = (s.emit a).advance 2 := by
  simp only [outputBody, bind_eq_ok, source_eq_ok, Except.ok.injEq, eq_comm (b := t)]

theorem outputBody_eq_error {f : Fields} {s : State} {k : FailKind} :
    outputBody f s = .error k ↔ s.sourceValue f.m1 1 = none ∧ k = .addressOutOfBounds := by
  simp only [outputBody, bind_eq_error, source_eq_error]
  simp

/-! ### exec and step -/

theorem finish_eq_next {s t : State} {r : Except FailKind State} :
    finish s r = .next t ↔ r = .ok t ∨ ∃ k, r = .error k ∧ t = s.raise k := by
  cases r <;> simp [finish, eq_comm]

/-- The body of an instruction: what exec finishes. -/
def bodyOf (i : Instr) (s : State) : Except FailKind State :=
  match i with
  | .add f => arithBody .add f s
  | .mult f => arithBody .mult f s
  | .input _ => inputBody s
  | .output f => outputBody f s
  | .halt _ => .ok s.halt

theorem exec_eq_finish (i : Instr) (s : State) : exec i s = finish s (bodyOf i s) := by cases i <;> rfl

/-- What a body that succeeds can have done: ADD and MULT, INPUT, OUTPUT, HALT. -/
theorem bodyOf_cases {i : Instr} {s t : State} (h : bodyOf i s = .ok t) :
    (∃ d v, (∃ op a b f, (i = .add f ∧ op = .add ∨ i = .mult f ∧ op = .mult) ∧ s.sourceValue f.m1 1 = some a ∧
        s.sourceValue f.m2 2 = some b ∧ arith s.config (aluExact op a b) = .ok v) ∧ s.paramWord 3 = some d ∧
        s.mem.valid d = true ∧ t = (s.withMem (s.mem.write d v)).advance 4) ∨
    (∃ f d, i = .input f ∧ s.paramWord 1 = some d ∧ s.mem.valid d = true ∧
        t = (s.withMem (s.mem.write d s.input)).advance 2) ∨
    (∃ f a, i = .output f ∧ s.sourceValue f.m1 1 = some a ∧ t = (s.emit a).advance 2) ∨
    (∃ f, i = .halt f ∧ t = s.halt) := by
  cases i with
  | add f =>
    obtain ⟨a, b, d, v, ha, hb, hd, hv, hr, rfl⟩ := arithBody_eq_ok.mp h
    exact .inl ⟨d, v, ⟨.add, a, b, f, .inl ⟨rfl, rfl⟩, ha, hb, hr⟩, hd, hv, rfl⟩
  | mult f =>
    obtain ⟨a, b, d, v, ha, hb, hd, hv, hr, rfl⟩ := arithBody_eq_ok.mp h
    exact .inl ⟨d, v, ⟨.mult, a, b, f, .inr ⟨rfl, rfl⟩, ha, hb, hr⟩, hd, hv, rfl⟩
  | input f =>
    obtain ⟨d, hd, hv, rfl⟩ := inputBody_eq_ok.mp h
    exact .inr (.inl ⟨f, d, rfl, hd, hv, rfl⟩)
  | output f =>
    obtain ⟨a, ha, rfl⟩ := outputBody_eq_ok.mp h
    exact .inr (.inr (.inl ⟨f, a, rfl, ha, rfl⟩))
  | halt f =>
    injection h with h
    exact .inr (.inr (.inr ⟨f, rfl, h.symm⟩))

/-- A running machine's step is the decoded instruction's, or the failure of its fetch. -/
theorem step_of_running {s : State} (h : s.runState = .running) :
    step s = match fetchInstr s with
      | .ok i => exec i s
      | .error k => .next (s.raise k) := by
  simp only [step, h]; rfl

theorem step_of_over {s : State} (h : s.runState ≠ .running) : step s = .next s := by
  simp only [step]; cases hr : s.runState <;> simp_all [idle]

/-- What a step can do: nothing once the run is over; a failure; or the fetched instruction's body. -/
theorem step_cases {s t : State} (h : step s = .next t) :
    (s.runState ≠ .running ∧ t = s) ∨
    (s.runState = .running ∧ ∃ k, t = s.raise k ∧
      (fetchInstr s = .error k ∨ ∃ i, fetchInstr s = .ok i ∧ bodyOf i s = .error k)) ∨
    (s.runState = .running ∧ ∃ i, fetchInstr s = .ok i ∧ bodyOf i s = .ok t) := by
  by_cases hr : s.runState = .running
  · rw [step_of_running hr] at h
    cases hf : fetchInstr s with
    | error k =>
      rw [hf] at h
      injection h with h
      exact .inr (.inl ⟨hr, k, h.symm, .inl rfl⟩)
    | ok i =>
      simp only [hf, exec_eq_finish] at h
      rcases finish_eq_next.mp h with hb | ⟨k, hb, rfl⟩
      · exact .inr (.inr ⟨hr, i, rfl, hb⟩)
      · exact .inr (.inl ⟨hr, k, rfl, .inr ⟨i, rfl, hb⟩⟩)
  · rw [step_of_over hr] at h
    injection h with h
    exact .inl ⟨hr, h.symm⟩

/-- Every execution of an instruction answers a next state. -/
theorem exists_exec_eq_next (i : Instr) (s : State) : ∃ t, exec i s = .next t := by
  rw [exec_eq_finish]; cases bodyOf i s <;> exact ⟨_, rfl⟩

/-- Every step answers a next state: the core neither stops nor refuses. -/
theorem exists_step_eq_next (s : State) : ∃ t, step s = .next t := by
  by_cases hr : s.runState = .running
  · rw [step_of_running hr]
    cases hf : fetchInstr s with
    | error k => exact ⟨_, rfl⟩
    | ok i =>
      simp only [exec_eq_finish]
      cases bodyOf i s with
      | ok t => exact ⟨t, rfl⟩
      | error k => exact ⟨_, rfl⟩
  · exact ⟨s, step_of_over hr⟩

/-! ### Runs -/

theorem run_of_step {s t : State} (h : step s = .next t) (k : Nat) :
    Host.Core.run Sys2Proof.core (k + 1) s = Host.Core.run Sys2Proof.core k t := by
  have : Sys2Proof.core.step s = .next t := h
  simp only [Host.Core.run, this]

/-- A relation every step extends, and that holds of no steps, holds along every run. -/
theorem run_induction {P : State → State → Prop} (hrefl : ∀ s, P s s)
    (hstep : ∀ s t u, step s = .next t → P t u → P s u) :
    ∀ (k : Nat) (s t : State), Host.Core.run Sys2Proof.core k s = .next t → P s t := by
  intro k
  induction k with
  | zero => intro s t h; cases h; exact hrefl s
  | succ k ih =>
    intro s t h
    obtain ⟨u, hu⟩ := exists_step_eq_next s
    rw [run_of_step hu] at h
    exact hstep s u t hu (ih u t h)

end Sys2Proof.Machine
end

