-- ==== Sys2Proof/Laws/PerInstr.lean ====
section
/-! SUPPORT. Facts stated of every instruction as syntax, one lemma per constructor. -/

namespace Sys2Proof.Laws.OpcodeDigits

/-- The instruction word is not negative (R66) and its low two decimal digits are the opcode (R49). -/
def Statement (i : Instr) : Prop := 0 ≤ encode i ∧ trem (encode i) 100 = i.opcode

theorem of_word {i : Instr} (h : 0 ≤ i.opcode) (h' : i.opcode < 100) : Statement i := by
  have hd : ∀ m : Mode, 0 ≤ m.digit := fun m => by cases m <;> decide
  have h1 := hd i.fields.m1
  have h2 := hd i.fields.m2
  have h3 := hd i.fields.m3
  have hn : 0 ≤ encode i := by simp only [encode]; omega
  refine ⟨hn, ?_⟩
  rw [trem_of_nonneg hn]
  simp only [encode]; omega

theorem add (f : Fields) : Statement (.add f) := of_word (by simp [Instr.opcode]) (by simp [Instr.opcode])
theorem mult (f : Fields) : Statement (.mult f) := of_word (by simp [Instr.opcode]) (by simp [Instr.opcode])
theorem input (f : Fields) : Statement (.input f) := of_word (by simp [Instr.opcode]) (by simp [Instr.opcode])
theorem output (f : Fields) : Statement (.output f) := of_word (by simp [Instr.opcode]) (by simp [Instr.opcode])
theorem halt (f : Fields) : Statement (.halt f) := of_word (by simp [Instr.opcode]) (by simp [Instr.opcode])

end Sys2Proof.Laws.OpcodeDigits
end

