-- ==== Sys2Proof/Tests/Slice0.lean ====
section
/-! SUPPORT. Tests with expected results from spec/ (95_test_vectors.md where an id is named), and for every obligation with
hypotheses a concrete input that meets them. -/

namespace Sys2Proof.Tests

open Sys2Proof Sys2Proof.Machine

/-! ### Helpers -/

/-- The next state of an outcome. -/
def after (o : Host.Outcome State Fault Refusal) : Option State :=
  match o with
  | .next t => some t
  | _ => none

/-- A launched machine under the spec's defaults. -/
def at0 (image : List Int) (input : Int) : State := State.launch Config.specDefault image input

/-- A launched machine under W = 64 and OVERFLOW = Wrap. -/
def wrapping (image : List Int) : State :=
  State.launch { width := .bits 64, overflow := .wrap, priority := .modeFirst } image 0

/-- The fields of an instruction word without high digits. -/
def fld (m1 m2 m3 : Mode) : Fields := { m1 := m1, m2 := m2, m3 := m3, high := 0 }

abbrev pos : Mode := .position
abbrev imm : Mode := .immediate

/-! ### WellFormed: an ill-formed term for its one check -/

theorem test_wellFormed_refuses_word_too_big :
    (Instr.add { m1 := pos, m2 := pos, m3 := pos, high := 21475 }).wellFormed (.bits 32) = false := by decide
theorem test_wellFormed_admits_word_that_fits :
    (Instr.add { m1 := imm, m2 := imm, m3 := imm, high := 21474 }).wellFormed (.bits 32) = true := by decide

/-! ### Decode: words written out from R47 (digits E D C BA), D-DEC vectors -/

theorem test_decode_add : decode .modeFirst 11101 = .ok (.add (fld imm imm imm)) := by decide
theorem test_decode_mult : decode .modeFirst 1002 = .ok (.mult (fld pos imm pos)) := by decide
theorem test_decode_input : decode .modeFirst 103 = .ok (.input (fld imm pos pos)) := by decide
theorem test_decode_output : decode .modeFirst 104 = .ok (.output (fld imm pos pos)) := by decide
theorem test_decode_halt : decode .modeFirst 99 = .ok (.halt (fld pos pos pos)) := by decide
theorem test_decode_ignored_quotient :
    decode .modeFirst 1200099 = .ok (.halt { m1 := pos, m2 := pos, m3 := pos, high := 12 }) := by decide
theorem test_decode_illegal_modes : decode .modeFirst 299 = .error .invalidMode ∧
    decode .opcodeFirst 20003 = .error .invalidMode ∧ decode .modeFirst 2104 = .error .invalidMode := by decide
theorem test_decode_illegal_opcodes : decode .modeFirst 0 = .error .invalidOpcode ∧
    decode .modeFirst 98 = .error .invalidOpcode ∧ decode .modeFirst (-100000) = .error .invalidOpcode := by decide
theorem test_decode_both_illegal : decode .modeFirst 9223372036854775807 = .error .invalidMode ∧
    decode .opcodeFirst 9223372036854775807 = .error .invalidOpcode := by decide
theorem test_decode_negative : decode .modeFirst (-101) = .error .invalidMode ∧
    decode .opcodeFirst (-100) = .error .invalidOpcode ∧ decode .modeFirst (-99) = .error .invalidOpcode := by decide
/-- D-DEC-23: opcode 07, mode1 8, mode2 5, mode3 7. -/
theorem test_decoderBlock_digits : (decoderBlock .modeFirst 9223372036854775807).digits.mode2 = 5 ∧
    (decoderBlock .modeFirst 1002).length = some (4, 3) ∧ (decoderBlock .modeFirst 205).fault = .invalidMode := by decide
/-- R66: `MULT [4], #3, [4]` is `1002, …`. -/
theorem test_encode_mult : encode (.mult (fld pos imm pos)) = 1002 := by decide
/-- R21: the codes of the record and the run state. -/
theorem test_codes : FailKind.code .arithmeticOverflow = 4 ∧ RunState.code .failed = 2 := by decide

/-! ### One step of each instruction -/

/-- D-OPR-6: the destination's digit is ignored. -/
theorem test_add_digit_of_destination :
    (after (step (at0 [11101, 3, 4, 3, 99] 0))).map (fun t => (t.mem.toList, t.pc)) = some ([11101, 3, 4, 7, 99], 4) := by decide
/-- D-ADD-8: the destination check precedes the overflow check. -/
theorem test_add_destination_before_overflow :
    (after (step (at0 [1101, 9223372036854775807, 1, 9, 99] 0))).map (fun t => (t.runState, t.failKind, t.failPc)) =
      some (.failed, .addressOutOfBounds, 0) := by decide
/-- S2: sources are read before the write, to its own parameter word. -/
theorem test_mult_own_parameter_word :
    (after (step (at0 [2, 3, 0, 3, 99] 0))).map (fun t => (t.mem.toList, t.pc)) = some ([2, 3, 0, 6, 99], 4) := by decide
/-- D-MUL-7, both policies. -/
theorem test_mult_overflow :
    (after (step (wrapping [1102, 3037000500, 3037000500, 0, 99]))).map (fun t => t.cell 0) =
      some (some (-9223372036709301616)) ∧
    (after (step (at0 [1102, 3037000500, 3037000500, 0, 99] 0))).map (fun t => (t.failKind, t.pc)) =
      some (.arithmeticOverflow, 0) := by decide
/-- S5, first step: INPUT overwrites its own instruction word. -/
theorem test_input_stores :
    (after (step (at0 [3, 0, 4, 0, 99] 42))).map (fun t => (t.mem.toList, t.pc, t.input)) =
      some ([42, 0, 4, 0, 99], 2, 42) := by decide
/-- D-IN-2: destination N. -/
theorem test_input_destination_outside :
    (after (step (at0 [3, 2] 7))).map (fun t => (t.failKind, t.mem.toList)) = some (.addressOutOfBounds, [3, 2]) := by decide
/-- D-OUT-2: OUTPUT reads its own instruction word. -/
theorem test_output_position :
    (after (step (at0 [4, 0, 99] 0))).map (fun t => (t.output, t.pc)) = some ([4], 2) := by decide
/-- D-OUT-1: an Immediate operand is never bounds-checked. -/
theorem test_output_immediate :
    (after (step (at0 [104, -7, 99] 0))).map (fun t => t.output) = some [-7] := by decide
/-- D-HLT-1: HALT in the last cell; pc and record kept. -/
theorem test_halt_last_cell :
    (after (step (at0 [99] 0))).bind State.result = some (.halted [99] []) ∧
    (after (step (at0 [99] 0))).map (fun t => t.pc) = some 0 := by decide
/-- D-HLT-3: a mode digit of HALT is checked. -/
theorem test_halt_bad_mode :
    (after (step (at0 [299] 0))).bind State.result = some (.failed .invalidMode 0) := by decide

/-! ### Fetch, arithmetic, memory, placing, assembly -/

/-- D-FET-1 and D-FET-2. -/
theorem test_fetch_outside :
    (after (step (at0 [] 0))).bind State.result = some (.failed .addressOutOfBounds 0) ∧
    (after (step (at0 [1, 0, 0] 0))).bind State.result = some (.failed .addressOutOfBounds 0) := by decide
/-- R85's vectors for W = 64 and W = 32. -/
theorem test_wrap_vectors : wrapTo (.bits 64) (-9223372036854775808 * -1) = -9223372036854775808 ∧
    wrapTo (.bits 64) (4294967296 * 4294967296) = 0 ∧ wrapTo (.bits 32) (46341 * 46341) = -2147479015 := by decide
/-- R82's vectors for W = 64. -/
theorem test_sum_fits : (WordWidth.bits 64).fits (9223372036854775807 + 1) = false ∧
    (WordWidth.bits 64).fits (9223372036854775807 + -9223372036854775808) = true := by decide
/-- Writing the unlisted value drops the cell, so equal memories are equal data. -/
theorem test_write_zero_is_canonical :
    (Memory.ofImage [5, 7]).write 1 0 = Memory.ofImage [5, 0] ∧ (Memory.ofImage [0, 7]).write 0 5 = Memory.ofImage [5, 7] := by
  decide
/-- A placed table word runs as the first instruction after reset: HALT (99). -/
theorem test_withFetchWord_halt :
    (after (step (State.reset.withFetchWord 8 99))).map (fun t => t.runState) = some .halted ∧
    decodeTableWord 8 99 = some (.halt (fld pos pos pos)) ∧ decodeTableWord 8 0 = none := by decide
/-- P1's first, second and last items, with a label (R64). -/
theorem test_assemble_labels :
    assemble [⟨[], .input (.label "x")⟩, ⟨[], .mult (.position (.label "x")) (.immediate (.num 3)) (.label "x")⟩, ⟨[], .halt⟩,
      ⟨["x"], .word (.num 0)⟩] = some [3, 7, 1002, 7, 3, 7, 99, 0] := by decide
/-- P2's first two items and its data word. -/
theorem test_disassemble :
    disassemble [1101, 90, 9, 6, 104, -7, 0] =
      [.add (.immediate (.num 90)) (.immediate (.num 9)) (.num 6), .output (.immediate (.num (-7))), .word (.num 0)] := by decide

/-! ### Witnesses: each obligation's hypotheses are met together, clause by clause -/

theorem witness_DecodedWordsEncodeBack : decode .opcodeFirst 1200099 = .ok (.halt { m1 := pos, m2 := pos, m3 := pos, high := 12 }) := by
  decide
theorem witness_WordsSelectInstructionsExactly : modesLegal 11199 ∧ opcodeKnown 11199 := by decide
theorem witness_IllegalWordsReportTheirKind : (modesLegal 98 ∧ ¬ opcodeKnown 98) ∧ (¬ modesLegal 299 ∧ opcodeKnown 299) ∧
    (¬ modesLegal 205 ∧ ¬ opcodeKnown 205) := by decide
theorem witness_NegativeWordsNeverDecode : ((-1 : Int) < 0 ∧ digit 2 (-1) = 0 ∧ digit 3 (-1) = 0 ∧ digit 4 (-1) = 0) ∧
    ((-100 : Int) < 0 ∧ ¬ (digit 2 (-100) = 0 ∧ digit 3 (-100) = 0 ∧ digit 4 (-100) = 0)) := by decide
theorem witness_HighDigitsAreIgnored : ((0 : Int) ≤ 98 ∧ (0 : Int) ≤ 1 ∧ decode .modeFirst 98 = .error .invalidOpcode) ∧
    ((0 : Int) ≤ 99 ∧ (0 : Int) ≤ 12 ∧ decode .modeFirst 99 = .ok (.halt (fld pos pos pos))) := by decide
theorem witness_DestinationDigitsAreCheckedAndIgnored : ((2 : Int) ≤ 2 ∧ (2 : Int) ≤ 9) ∧ ((2 : Int) ≤ 9 ∧ (9 : Int) ≤ 9) := by decide
theorem witness_SpellableWordsDisassembleToTheirItems : decode .modeFirst 98 = .error .invalidOpcode ∧
    decode .modeFirst (-100) = .error .invalidMode := by decide
theorem witness_StepRunsDecodedInstruction : (at0 [99] 0).runState = .running ∧ (at0 [99] 0).cell 0 = some 99 ∧
    decode (at0 [99] 0).config.priority 99 = .ok (.halt (fld pos pos pos)) := by decide
theorem witness_FetchOutsideMemoryFails : State.reset.runState = .running ∧ State.reset.mem.size ≤ State.reset.pc := by decide
theorem witness_UndecodableWordsFailAtOnce : (at0 [299] 0).runState = .running ∧ (at0 [299] 0).cell 0 = some 299 ∧
    decode (at0 [299] 0).config.priority 299 = .error .invalidMode := by decide
theorem witness_NothingHappensAfterTheEnd : (at0 [99] 0).halt.over ∧ (State.reset.raise .addressOutOfBounds).over := by decide
theorem witness_ResolveFollowsTheMode : (at0 [5, 7] 0).cell 1 = some 7 ∧
    ((0 : Int) ≤ 0 ∧ (0 : Int) < ((at0 [5, 7] 0).mem.size : Int)) ∧ (-1 : Int) < 0 ∧ ((at0 [5, 7] 0).mem.size : Int) ≤ 2 := by decide
theorem witness_PcAdvancesByTheWidth :
    (∃ t, (at0 [104, 1, 99] 0).runState = .running ∧ step (at0 [104, 1, 99] 0) = .next t ∧ t.runState = .running) ∧
    (∃ t, (at0 [99] 0).runState = .running ∧ step (at0 [99] 0) = .next t ∧ t.runState ≠ .running) ∧
    (∃ t, State.reset.runState = .running ∧ step State.reset = .next t ∧ State.reset.mem.size ≤ State.reset.pc) :=
  ⟨⟨_, rfl, rfl, by decide⟩, ⟨_, rfl, rfl, by decide⟩, ⟨_, rfl, rfl, by decide⟩⟩
/-- S1 (destination 0) and D-ADD-6 (destination N − 1). -/
theorem witness_AddStoresTheSum :
    ((at0 [1, 0, 0, 0, 99] 0).sourceValue pos 1 = some 1 ∧ (at0 [1, 0, 0, 0, 99] 0).sourceValue pos 2 = some 1 ∧
      (at0 [1, 0, 0, 0, 99] 0).paramWord 3 = some 0 ∧ (0 : Int) ≤ 0 ∧ (0 : Int) < ((at0 [1, 0, 0, 0, 99] 0).mem.size : Int) ∧
      (at0 [1, 0, 0, 0, 99] 0).config.width.fits (1 + 1) = true) ∧
    ((at0 [1, 0, 0, 4, 99] 0).sourceValue pos 1 = some 1 ∧ (at0 [1, 0, 0, 4, 99] 0).sourceValue pos 2 = some 1 ∧
      (at0 [1, 0, 0, 4, 99] 0).paramWord 3 = some 4 ∧ (0 : Int) ≤ 4 ∧ (4 : Int) < ((at0 [1, 0, 0, 4, 99] 0).mem.size : Int) ∧
      (at0 [1, 0, 0, 4, 99] 0).config.width.fits (1 + 1) = true) := by decide
/-- S3. -/
theorem witness_MultStoresTheProduct : (at0 [2, 4, 4, 5, 99, 0] 0).sourceValue pos 1 = some 99 ∧
    (at0 [2, 4, 4, 5, 99, 0] 0).sourceValue pos 2 = some 99 ∧ (at0 [2, 4, 4, 5, 99, 0] 0).paramWord 3 = some 5 ∧ (0 : Int) ≤ 5 ∧
    (5 : Int) < ((at0 [2, 4, 4, 5, 99, 0] 0).mem.size : Int) ∧
    (at0 [2, 4, 4, 5, 99, 0] 0).config.width.fits (99 * 99) = true := by decide
/-- D-ADD-4 (Fault) and D-MUL-5's product (Wrap). -/
theorem witness_OverflowFollowsThePolicy :
    ((at0 [1101, 9223372036854775807, 1, 0, 99] 0).config.width.allowed = true ∧
      (at0 [1101, 9223372036854775807, 1, 0, 99] 0).sourceValue imm 1 = some 9223372036854775807 ∧
      (at0 [1101, 9223372036854775807, 1, 0, 99] 0).sourceValue imm 2 = some 1 ∧
      (at0 [1101, 9223372036854775807, 1, 0, 99] 0).paramWord 3 = some 0 ∧
      (0 : Int) < ((at0 [1101, 9223372036854775807, 1, 0, 99] 0).mem.size : Int) ∧
      (at0 [1101, 9223372036854775807, 1, 0, 99] 0).config.width.fits (9223372036854775807 + 1) = false ∧
      (at0 [1101, 9223372036854775807, 1, 0, 99] 0).config.overflow = .fault) ∧
    ((wrapping [1002, 5, -1, 5, 99, -9223372036854775808]).config.width.allowed = true ∧
      (wrapping [1002, 5, -1, 5, 99, -9223372036854775808]).sourceValue pos 1 = some (-9223372036854775808) ∧
      (wrapping [1002, 5, -1, 5, 99, -9223372036854775808]).sourceValue imm 2 = some (-1) ∧
      (wrapping [1002, 5, -1, 5, 99, -9223372036854775808]).paramWord 3 = some 5 ∧
      (5 : Int) < ((wrapping [1002, 5, -1, 5, 99, -9223372036854775808]).mem.size : Int) ∧
      (wrapping [1002, 5, -1, 5, 99, -9223372036854775808]).config.width.fits (-9223372036854775808 * -1) = false ∧
      (wrapping [1002, 5, -1, 5, 99, -9223372036854775808]).config.overflow = .wrap) := by decide
/-- One state for each way an address can be bad: D-OPR-1, D-OPR-2, D-FET-2, D-OPR-5, D-ADD-7. -/
theorem witness_ArithmeticFailsOnBadAddresses : (at0 [1, -1, 0, 0, 99] 0).sourceValue pos 1 = none ∧
    (at0 [1, 0, 5, 0, 99] 0).sourceValue pos 2 = none ∧ (at0 [1, 0, 0] 0).paramWord 3 = none ∧
    ((at0 [1, 0, 0, -1, 99] 0).paramWord 3 = some (-1) ∧ (-1 : Int) < 0) ∧
    ((at0 [1, 0, 0, 5, 99] 0).paramWord 3 = some 5 ∧ ((at0 [1, 0, 0, 5, 99] 0).mem.size : Int) ≤ 5) := by decide
theorem witness_ArithmeticResultRule : Config.specDefault.width.fits 9223372036854775807 = true ∧
    (Config.specDefault.width.fits 9223372036854775808 = false ∧ Config.specDefault.overflow = .fault) ∧
    ((wrapping []).config.width.fits 9223372036854775808 = false ∧ (wrapping []).config.overflow = .wrap) ∧
    (Config.mk .unbounded .fault .modeFirst).width = .unbounded := by decide
theorem witness_WrapIsTheUniqueRepresentative : (8 : Nat) ≤ 8 ∧ wrapTo (.bits 8) 128 = -128 ∧
    (WordWidth.bits 8).fits (-128) = true := by decide
theorem witness_AluBlockAgreesWithTheEngine : Config.specDefault.width.allowed = true ∧
    ((aluBlock Config.specDefault .add 1 1).overflow = false ∧
      (aluBlock Config.specDefault .add 9223372036854775807 1).overflow = true ∧ Config.specDefault.overflow = .fault) ∧
    ((wrapping []).config.width.allowed = true ∧ (wrapping []).config.overflow = .wrap) := by decide
theorem witness_InputStoresTheLatch : ((at0 [3, 0] 7).paramWord 1 = some 0 ∧ (0 : Int) < ((at0 [3, 0] 7).mem.size : Int)) ∧
    ((at0 [3, 1] 7).paramWord 1 = some 1 ∧ (1 : Int) < ((at0 [3, 1] 7).mem.size : Int)) := by decide
theorem witness_OutputAppendsTheOperand : (at0 [4, 0, 99] 0).sourceValue pos 1 = some 4 ∧
    (at0 [104, -7, 99] 0).sourceValue imm 1 = some (-7) := by decide
theorem witness_InputAndOutputFailOnBadAddresses : (at0 [3] 0).paramWord 1 = none ∧
    ((at0 [3, 2] 0).paramWord 1 = some 2 ∧ ((at0 [3, 2] 0).mem.size : Int) ≤ 2) ∧
    ((at0 [3, -1] 0).paramWord 1 = some (-1) ∧ (-1 : Int) < 0) ∧
    ((fld pos pos pos).m1 = .position ∧ (at0 [4, 3, 99] 0).paramWord 1 = some 3 ∧ ((at0 [4, 3, 99] 0).mem.size : Int) ≤ 3) := by
  decide
theorem witness_InputLatchIsConstantAndReadOnlyByInput :
    (∃ t, Host.Core.run Sys2Proof.core 1 (at0 [3, 0] 7) = .next t) ∧
    (∃ t, exec (.input (fld pos pos pos)) (at0 [3, 0] 7) = .next t ∧ (at0 [3, 0] 7).paramWord 1 = some 0 ∧
      (at0 [3, 0] 7).mem.valid 0 = true) ∧
    (∃ t, (∀ f, Instr.output (fld imm pos pos) ≠ .input f) ∧ exec (.output (fld imm pos pos)) (at0 [104, 1] 7) = .next t) :=
  ⟨⟨_, rfl⟩, ⟨_, rfl, by decide⟩, ⟨_, fun _ => Instr.noConfusion, rfl⟩⟩
theorem witness_OutputsAreAppendOnly : (∃ t, Host.Core.run Sys2Proof.core 1 (at0 [104, 1] 7) = .next t) ∧
    ∃ t, step (at0 [104, 1] 7) = .next t ∧ t.output ≠ (at0 [104, 1] 7).output :=
  ⟨⟨_, rfl⟩, ⟨_, rfl, by decide⟩⟩
theorem witness_OutputsNeverInfluenceTheRun : ∃ t, Host.Core.run Sys2Proof.core 1 (at0 [104, 1] 7) = .next t := ⟨_, rfl⟩
theorem witness_ArithmeticFrame :
    (∃ t, exec (.add (fld pos pos pos)) (at0 [1, 0, 0, 4, 99] 0) = .next t ∧ (at0 [1, 0, 0, 4, 99] 0).paramWord 3 = some 4) ∧
    (∃ t, exec (.mult (fld pos pos pos)) (at0 [2, 0, 0] 0) = .next t ∧ (at0 [2, 0, 0] 0).paramWord 3 = none) :=
  ⟨⟨_, rfl, by decide⟩, ⟨_, rfl, by decide⟩⟩
theorem witness_InputFrame :
    (∃ t, exec (.input (fld pos pos pos)) (at0 [3, 0] 7) = .next t ∧ (at0 [3, 0] 7).paramWord 1 = some 0) ∧
    (∃ t, exec (.input (fld pos pos pos)) (at0 [3] 7) = .next t ∧ (at0 [3] 7).paramWord 1 = none) :=
  ⟨⟨_, rfl, by decide⟩, ⟨_, rfl, by decide⟩⟩
theorem witness_OutputAndHaltFrame : (∃ t, exec (.output (fld imm pos pos)) (at0 [104, 1] 0) = .next t) ∧
    ∃ t, exec (.halt (fld pos pos pos)) (at0 [99] 0) = .next t := ⟨⟨_, rfl⟩, ⟨_, rfl⟩⟩
/-- Two memories that differ in a cell the ADD does not read. -/
theorem witness_InstructionsReadOnlyTheirOperands :
    (Memory.ofImage [1101, 1, 2, 0, 5]).size = (at0 [1101, 1, 2, 0, 6] 0).mem.size ∧
    Memory.ofImage [1101, 1, 2, 0, 5] ≠ (at0 [1101, 1, 2, 0, 6] 0).mem ∧
    readsAgree (.add (fld imm imm pos)) (at0 [1101, 1, 2, 0, 6] 0)
      { at0 [1101, 1, 2, 0, 6] 0 with mem := Memory.ofImage [1101, 1, 2, 0, 5] } :=
  ⟨by decide, by decide, by decide, by decide, by decide⟩
theorem witness_MemWriteWritesOneCell : (-1 : Int) < 0 ∧ ((at0 [5, 7] 0).mem.size : Int) ≤ 2 ∧
    ((0 : Int) ≤ 1 ∧ (1 : Int) < ((at0 [5, 7] 0).mem.size : Int)) ∧
    ∃ t, (at0 [3, 2] 0).runState ≠ .failed ∧ exec (.input (fld pos pos pos)) (at0 [3, 2] 0) = .next t ∧ t.runState = .failed :=
  ⟨by decide, by decide, by decide, _, by decide, rfl, by decide⟩
theorem witness_MemoryRefinesAnArray : 1 < (Memory.ofImage [5, 7]).size ∧ (Memory.ofImage [5, 0]).wf = true ∧
    ((Memory.ofImage [5, 7]).write 1 0).wf = true ∧
    (Memory.ofImage [5, 0]).toList = ((Memory.ofImage [5, 7]).write 1 0).toList := by decide
/-- ADD, MULT and INPUT each write 99 (HALT) at the next instruction's address. -/
theorem witness_WrittenWordsAreFetchedNext :
    ((at0 [1101, 90, 9, 4, 0] 0).runState = .running ∧ (at0 [1101, 90, 9, 4, 0] 0).sourceValue imm 1 = some 90 ∧
      (at0 [1101, 90, 9, 4, 0] 0).sourceValue imm 2 = some 9 ∧ (at0 [1101, 90, 9, 4, 0] 0).paramWord 3 = some 4 ∧
      (4 : Int) < ((at0 [1101, 90, 9, 4, 0] 0).mem.size : Int) ∧ Config.specDefault.width.fits (90 + 9) = true ∧
      decode .modeFirst (90 + 9) = .ok (.halt (fld pos pos pos))) ∧
    ((at0 [1102, 33, 3, 4, 0] 0).sourceValue imm 1 = some 33 ∧ (at0 [1102, 33, 3, 4, 0] 0).sourceValue imm 2 = some 3 ∧
      (at0 [1102, 33, 3, 4, 0] 0).paramWord 3 = some 4 ∧ Config.specDefault.width.fits (33 * 3) = true ∧
      decode .modeFirst (33 * 3) = .ok (.halt (fld pos pos pos))) ∧
    ((at0 [3, 2, 0] 99).paramWord 1 = some 2 ∧ (2 : Int) < ((at0 [3, 2, 0] 99).mem.size : Int) ∧
      decode .modeFirst (at0 [3, 2, 0] 99).input = .ok (.halt (fld pos pos pos))) := by decide
theorem witness_FailingStepsRecordKindAndPcOnly : ∃ t, (at0 [1, 0, 0, 5, 99] 0).runState = .running ∧
    step (at0 [1, 0, 0, 5, 99] 0) = .next t ∧ t.runState = .failed := ⟨_, rfl, rfl, by decide⟩
theorem witness_FailureKindsByInstruction : ∃ t, (at0 [1101, 9223372036854775807, 1, 0] 0).runState ≠ .failed ∧
    exec (.add (fld imm imm pos)) (at0 [1101, 9223372036854775807, 1, 0] 0) = .next t ∧ t.runState = .failed ∧
    t.failKind = .arithmeticOverflow := ⟨_, by decide, rfl, by decide, by decide⟩
theorem witness_RunStateTransitions :
    (∃ t, step (at0 [99] 0).halt = .next t ∧ (at0 [99] 0).halt.runState ≠ .running) ∧
    (∃ t, step (at0 [99] 0) = .next t ∧ t.runState = .halted ∧ (at0 [99] 0).runState = .running ∧
      (at0 [99] 0).cell 0 = some 99 ∧ decode (at0 [99] 0).config.priority 99 = .ok (.halt (fld pos pos pos))) :=
  ⟨⟨_, rfl, by decide⟩, ⟨_, rfl, by decide⟩⟩
theorem witness_FailureRecordIsInvisibleToPrograms :
    (∃ t, (at0 [299] 0).runState = .running ∧ step (at0 [299] 0) = .next t ∧ t.runState = .failed) ∧
    (∃ t, (at0 [104, 1] 0).runState = .running ∧ step (at0 [104, 1] 0) = .next t ∧ t.runState ≠ .failed) :=
  ⟨⟨_, rfl, rfl, by decide⟩, ⟨_, rfl, rfl, by decide⟩⟩
/-- OUTPUT has run and pc has left the memory. -/
theorem witness_FailedRunsGiveKindAndPc : ∃ t, ((at0 [104, 1] 0).advance 2).runState = .running ∧
    step ((at0 [104, 1] 0).advance 2) = .next t ∧ t.runState = .failed := ⟨_, rfl, rfl, by decide⟩
theorem witness_LaunchSetsEveryElement : (-1 : Int) < 0 := by decide
theorem witness_LaunchesAreAdmittedOrRefused : (∃ s, some State.reset = some s ∧ s.runState = .running) ∧
    (∀ s, some (at0 [99] 0).halt = some s → s.over) ∧
    (Config.specDefault.width.allowed = true ∧ Config.specDefault.width.admitsLength [9223372036854775807].length = true ∧
      (∀ v ∈ [(9223372036854775807 : Int)], Config.specDefault.width.fits v = true) ∧ Config.specDefault.width.fits 0 = true) ∧
    ((WordWidth.bits 7).allowed = false ∧ (WordWidth.bits 8).admitsLength 125 = false ∧
      (WordWidth.bits 64).fits 9223372036854775808 = false) :=
  ⟨⟨_, rfl, rfl⟩, fun _ h => by cases h; decide, by decide, by decide⟩
theorem witness_LaunchEstablishesTheInvariant : launchAdmitted Config.specDefault [1, 0, 0, 0, 99] 42 = true := by decide

/-- A launched machine in the invariant, with a step. -/
theorem witness_StepKeepsTheInvariant : (at0 [104, -7] 42).Inv ∧ ∃ t, step (at0 [104, -7] 42) = .next t := by
  refine ⟨⟨by decide, by decide, by decide, fun a v h => ?_, by decide, by decide, by decide, by decide, by decide,
    fun h => RunState.noConfusion (show RunState.running = .halted from h), by decide, by decide, by decide⟩, _, rfl⟩
  have hv := (Memory.valid_iff _ _).mp (Memory.valid_of_read? h)
  obtain ⟨h0, h1⟩ : 0 ≤ a ∧ a < 2 := hv
  obtain rfl | rfl : a = 0 ∨ a = 1 := by omega
  · obtain rfl : v = 104 := Option.some.inj (h.symm.trans (by decide : (at0 [104, -7] 42).cell 0 = some 104))
    decide
  · obtain rfl : v = -7 := Option.some.inj (h.symm.trans (by decide : (at0 [104, -7] 42).cell 1 = some (-7)))
    decide
theorem witness_ParametersAndLengthAreFixedForTheRun : ∃ t, Host.Core.run Sys2Proof.core 1 (at0 [99] 0) = .next t := ⟨_, rfl⟩
theorem witness_PlacedTableWordsRunNext : State.reset.config.width = .bits 64 ∧
    decodeTableWord 8 4 = some (.output (fld pos pos pos)) := by decide

end Sys2Proof.Tests
end

section
/-! SUPPORT. Scope (00_scope.md): the wrap of R8 as a representative modulo 2^W, and what the run never writes (R5, R15). -/

namespace Sys2Proof.Machine

/-! ### The wrap (R8) -/

/-- WORD is exactly one period long: the modulus of the wrap is twice the bound of the range. -/
theorem fits_bits_iff {w : Nat} (hw : 1 ≤ w) (r : Int) :
    (WordWidth.bits w).fits r = true ↔ -((2 ^ w : Nat) : Int) ≤ 2 * r ∧ 2 * r < ((2 ^ w : Nat) : Int) := by
  have hp : 2 ^ w = 2 * 2 ^ (w - 1) := by rw [mul_comm, Nat.two_pow_pred_mul_two hw]
  simp only [WordWidth.fits, decide_eq_true_eq, hp]
  omega

/-- The wrap takes the value's remainder, or that remainder one period lower. -/
theorem two_pow_dvd_wrapTo_sub (w : Nat) (v : Int) : ((2 ^ w : Nat) : Int) ∣ wrapTo (.bits w) v - v := by
  have hrem : ((2 ^ w : Nat) : Int) ∣ v % ((2 ^ w : Nat) : Int) - v := dvd_sub_comm.mp Int.dvd_self_sub_emod
  simp only [wrapTo]
  split
  · exact hrem
  · rw [sub_right_comm]
    exact dvd_sub_self_right.mpr hrem

/-- Two words of a finite width that are congruent modulo 2^W are equal: they lie less than 2^W apart. -/
theorem eq_of_fits_of_dvd_sub {w : Nat} (hw : 1 ≤ w) {r r' : Int} (hr : (WordWidth.bits w).fits r = true)
    (hr' : (WordWidth.bits w).fits r' = true) (hdvd : ((2 ^ w : Nat) : Int) ∣ r - r') : r = r' := by
  rw [fits_bits_iff hw] at hr hr'
  have habs : |r - r'| < ((2 ^ w : Nat) : Int) := abs_lt.mpr ⟨by omega, by omega⟩
  exact sub_eq_zero.mp (Int.eq_zero_of_abs_lt_dvd hdvd habs)

/-! ### What the run never writes (R5, R15) -/

/-- No body writes the parameters or changes the memory's length: MemWrite keeps N (R15), the other updates keep memory. -/
theorem bodyOf_config_and_size {i : Instr} {s t : State} (h : bodyOf i s = .ok t) :
    t.config = s.config ∧ t.mem.size = s.mem.size := by
  rcases bodyOf_cases h with ⟨d, v, -, -, -, rfl⟩ | ⟨f, d, -, -, -, rfl⟩ | ⟨f, a, -, -, rfl⟩ | ⟨f, -, rfl⟩ <;> simp

theorem step_config_and_size {s t : State} (h : step s = .next t) :
    t.config = s.config ∧ t.mem.size = s.mem.size := by
  rcases step_cases h with ⟨-, rfl⟩ | ⟨-, k, rfl, -⟩ | ⟨-, i, -, hbody⟩
  · exact ⟨rfl, rfl⟩
  · simp
  · exact bodyOf_config_and_size hbody

/-- Settles O21: the wrap is a word congruent to the value, and two congruent words are equal. -/
theorem wrapIsTheUniqueRepresentative : Obligations.WrapIsTheUniqueRepresentative := by
  refine ⟨fun v => rfl, fun w v r hw => ?_⟩
  have hfits : (WordWidth.bits w).fits (wrapTo (.bits w) v) = true :=
    fits_wrapTo (w := .bits w) (decide_eq_true hw) v
  have hcong := two_pow_dvd_wrapTo_sub w v
  constructor
  · rintro rfl
    exact ⟨hfits, hcong⟩
  · rintro ⟨hr, hdvd⟩
    have hdiff : ((2 ^ w : Nat) : Int) ∣ r - wrapTo (.bits w) v := by
      simpa using dvd_sub hdvd hcong
    exact eq_of_fits_of_dvd_sub (by omega) hr hfits hdiff

/-- Settles O49: every step keeps the parameters and N, so every run does. -/
theorem parametersAndLengthAreFixedForTheRun : Obligations.ParametersAndLengthAreFixedForTheRun := by
  refine run_induction (P := fun s t => t.config = s.config ∧ t.mem.size = s.mem.size) (fun _ => ⟨rfl, rfl⟩) ?_
  intro s t u hstep ⟨hconfig, hsize⟩
  obtain ⟨hconfig', hsize'⟩ := step_config_and_size hstep
  exact ⟨hconfig.trans hconfig', hsize.trans hsize'⟩

end Sys2Proof.Machine
end

section
/-! SUPPORT. The state (10_state.md): the sparse memory as an array of words (R15), what a step does to each element (R16, R19,
R22, R23, R27), what an instruction reads (R31), and that every step keeps the invariant. -/

namespace Sys2Proof.Machine

/-! ### The sparse memory and the array of R15 -/

theorem Memory.valid_congr {m m' : Memory} (h : m'.size = m.size) (a : Int) : m'.valid a = m.valid a := by
  simp only [Memory.valid, h]

@[simp] theorem Memory.length_toList (m : Memory) : m.toList.length = m.size := by simp [Memory.toList]

theorem Memory.read?_eq_getElem? (m : Memory) (a : Nat) : m.read? (a : Int) = m.toList[a]? := by
  by_cases h : a < m.size <;> simp [Memory.read?, Memory.valid, Memory.toList, h]

/-- In rising cells that list no default, the listed words are those a lookup gives. -/
theorem mem_cells_iff_lookupCell {cells : List (Nat × Int)} (hrise : cells.Pairwise (fun c c' => c.1 < c'.1))
    (hlisted : ∀ c ∈ cells, c.2 ≠ Memory.unlisted) (a : Nat) (v : Int) :
    (a, v) ∈ cells ↔ lookupCell cells a = v ∧ v ≠ Memory.unlisted := by
  induction cells with
  | nil => simp [lookupCell, eq_comm]
  | cons c rest ih =>
    obtain ⟨b, u⟩ := c
    obtain ⟨hlt, hrest⟩ := List.pairwise_cons.mp hrise
    have ih := ih hrest fun c hc => hlisted c (List.mem_cons_of_mem _ hc)
    have hu : u ≠ Memory.unlisted := hlisted (b, u) List.mem_cons_self
    by_cases hb : b = a
    · subst hb
      have hnot : (b, v) ∉ rest := fun hm => lt_irrefl b (hlt _ hm)
      simp only [List.mem_cons, Prod.mk.injEq, true_and, hnot, or_false, lookupCell, if_true]
      exact ⟨fun h => ⟨h.symm, h ▸ hu⟩, fun h => h.1.symm⟩
    · simp [lookupCell, hb, Ne.symm hb, ih]

/-- A canonical memory lists exactly the words other than the default that can be read. -/
theorem Memory.mem_cells_iff {m : Memory} (h : m.wf = true) (a : Nat) (v : Int) :
    (a, v) ∈ m.cells ↔ m.read? (a : Int) = some v ∧ v ≠ Memory.unlisted := by
  obtain ⟨hrise, hcells⟩ := (Memory.wf_iff m).mp h
  have hlookup := mem_cells_iff_lookupCell hrise (fun c hc => (hcells c hc).2) a v
  constructor
  · intro hm
    obtain ⟨hv, hne⟩ := hlookup.mp hm
    have ha : a < m.size := (hcells _ hm).1
    exact ⟨by simp [Memory.read?, Memory.valid, ha, hv], hne⟩
  · rintro ⟨hr, hne⟩
    have hvalid := Memory.valid_of_read? hr
    simp only [Memory.read?, hvalid, if_true, Int.toNat_natCast, Option.some.injEq] at hr
    exact hlookup.mpr ⟨hr, hne⟩

/-- The canonical form is unique: two canonical memories with one listing have the same rising cells. -/
theorem Memory.eq_of_toList_eq {m m' : Memory} (h : m.wf = true) (h' : m'.wf = true) (heq : m.toList = m'.toList) :
    m = m' := by
  have hsize : m.size = m'.size := by simpa using congrArg List.length heq
  have hmem : ∀ c, c ∈ m.cells ↔ c ∈ m'.cells := fun ⟨a, v⟩ => by
    rw [Memory.mem_cells_iff h, Memory.mem_cells_iff h', Memory.read?_eq_getElem?, Memory.read?_eq_getElem?, heq]
  have hcells : m.cells = m'.cells :=
    List.Pairwise.eq_of_mem_iff (r := fun c c' : Nat × Int => c.1 < c'.1)
      ((Memory.wf_iff m).mp h).1 ((Memory.wf_iff m').mp h').1 (fun c => hmem c)
  exact congrArg₂ Memory.mk hsize hcells

/-- Settles O35: a read is the listing's entry, so loads and writes agree with the array entry by entry. -/
theorem memoryRefinesAnArray : Obligations.MemoryRefinesAnArray := by
  refine ⟨fun image => ?_, Memory.length_toList, Memory.read?_eq_getElem?, fun m a v ha => ?_,
    fun m m' => Memory.eq_of_toList_eq⟩
  · exact List.ext_getElem? fun a => by rw [← Memory.read?_eq_getElem?, Memory.read?_ofImage]
  · have hvalid : m.valid (a : Int) = true := (Memory.valid_iff _ _).mpr ⟨by omega, by omega⟩
    refine List.ext_getElem? fun x => ?_
    rw [← Memory.read?_eq_getElem?, Memory.read?_write hvalid, Memory.read?_eq_getElem?, List.getElem?_set]
    by_cases hx : x = a
    · simp [hx, ha]
    · simp [hx, Ne.symm hx]

/-- Settles O44: the loaded memory reads as the image, and every other element is set by the launch itself. -/
theorem launchSetsEveryElement : Obligations.LaunchSetsEveryElement := by
  refine fun cfg image input => ⟨rfl, Memory.read?_ofImage image, fun a ha => ?_, rfl, rfl, rfl, rfl, rfl, rfl, rfl⟩
  exact State.cell_eq_none_iff.mpr (.inl ha)

/-! ### What a step does to pc, the run state, the latch and the outputs -/

theorem pc_lt_size_of_fetchInstr {s : State} {i : Instr} (h : fetchInstr s = .ok i) : s.pc < s.mem.size := by
  obtain ⟨w, hw, -⟩ := fetchInstr_eq_ok.mp h
  have := (Memory.valid_iff _ _).mp (Memory.valid_of_read? hw)
  omega

/-- No body writes the latch or the failure record. -/
theorem bodyOf_input_and_record {i : Instr} {s t : State} (h : bodyOf i s = .ok t) :
    t.input = s.input ∧ t.failKind = s.failKind ∧ t.failPc = s.failPc := by
  rcases bodyOf_cases h with ⟨d, v, -, -, -, rfl⟩ | ⟨f, d, -, -, -, rfl⟩ | ⟨f, a, -, -, rfl⟩ | ⟨f, -, rfl⟩ <;> simp

/-- A body that succeeds is HALT's, or goes on: the run state stays and pc moves past the instruction (R77, R94). -/
theorem bodyOf_halts_or_advances {i : Instr} {s t : State} (h : bodyOf i s = .ok t) :
    (∃ f, i = .halt f ∧ t = s.halt) ∨
    ((∀ f, i ≠ .halt f) ∧ t.runState = s.runState ∧ t.pc = s.pc + i.width ∧ (i.width = 4 ∨ i.width = 2)) := by
  rcases bodyOf_cases h with ⟨d, v, ⟨op, a, b, f, hi, -⟩, -, -, rfl⟩ | ⟨f, d, rfl, -, -, rfl⟩ | ⟨f, a, rfl, -, rfl⟩ | hhalt
  · rcases hi with ⟨rfl, -⟩ | ⟨rfl, -⟩ <;> simp [Instr.width]
  · simp [Instr.width]
  · simp [Instr.width]
  · exact .inl hhalt

/-- Settles O15: a step that goes on ran a body other than HALT's; HALT and a failure keep pc. -/
theorem pcAdvancesByTheWidth : Obligations.PcAdvancesByTheWidth := by
  refine ⟨fun _ _ _ => rfl, fun s t hrun hstep => ?_⟩
  rcases step_cases hstep with ⟨hover, -⟩ | ⟨-, k, rfl, -⟩ | ⟨-, i, hfetch, hbody⟩
  · exact absurd hrun hover
  · simp
  · have hpc := pc_lt_size_of_fetchInstr hfetch
    obtain ⟨w, hw, hdec⟩ := fetchInstr_eq_ok.mp hfetch
    rcases bodyOf_halts_or_advances hbody with ⟨f, -, rfl⟩ | ⟨-, hstate, hadv, hwidth⟩
    · exact ⟨fun h => by simp at h, fun _ => rfl, le_rfl, fun h => by omega⟩
    · exact ⟨fun _ => ⟨w, i, hw, hdec, hadv, hwidth⟩, fun h => absurd (hstate.trans hrun) h, by omega,
        fun h => by omega⟩

/-- Settles O39: HALT's body is the only one that writes the run state. -/
theorem runStateTransitions : Obligations.RunStateTransitions := by
  intro s t hstep
  refine ⟨fun hover => ?_, fun hhalted hrun => ?_, fun hrun w f hw hdec => ?_⟩
  · rw [step_of_over hover] at hstep
    cases hstep
    rfl
  · rcases step_cases hstep with ⟨hover, -⟩ | ⟨-, k, rfl, -⟩ | ⟨-, i, hfetch, hbody⟩
    · exact absurd hrun hover
    · simp at hhalted
    · rcases bodyOf_halts_or_advances hbody with ⟨f, rfl, -⟩ | ⟨-, hstate, -⟩
      · obtain ⟨w, hw, hdec⟩ := fetchInstr_eq_ok.mp hfetch
        exact ⟨w, f, hw, hdec⟩
      · simp [hstate, hrun] at hhalted
  · have hfetch : fetchInstr s = .ok (.halt f) := fetchInstr_eq_ok.mpr ⟨w, hw, hdec⟩
    rw [step_of_running hrun, hfetch] at hstep
    cases hstep
    rfl

theorem step_input {s t : State} (h : step s = .next t) : t.input = s.input := by
  rcases step_cases h with ⟨-, rfl⟩ | ⟨-, k, rfl, -⟩ | ⟨-, i, -, hbody⟩
  · rfl
  · rfl
  · exact (bodyOf_input_and_record hbody).1

/-- A step keeps OUT, or it ran OUTPUT and appended its operand (R91). -/
theorem step_output {s t : State} (h : step s = .next t) :
    t.output = s.output ∨ ∃ w f a, s.cell s.pc = some w ∧ decode s.config.priority w = .ok (.output f) ∧
      s.sourceValue f.m1 1 = some a ∧ t.output = s.output ++ [a] := by
  rcases step_cases h with ⟨-, rfl⟩ | ⟨-, k, rfl, -⟩ | ⟨-, i, hfetch, hbody⟩
  · exact .inl rfl
  · exact .inl rfl
  · rcases bodyOf_cases hbody with ⟨d, v, -, -, -, rfl⟩ | ⟨f, d, -, -, -, rfl⟩ | ⟨f, a, rfl, ha, rfl⟩ | ⟨f, -, rfl⟩
    · exact .inl rfl
    · exact .inl rfl
    · obtain ⟨w, hw, hdec⟩ := fetchInstr_eq_ok.mp hfetch
      exact .inr ⟨w, f, a, hw, hdec, ha, rfl⟩
    · exact .inl rfl

/-- Settles O28: each step appends at most one entry, so OUT at any time is an initial part of OUT later. -/
theorem outputsAreAppendOnly : Obligations.OutputsAreAppendOnly := by
  constructor
  · refine run_induction (P := fun s t => s.output <+: t.output) (fun _ => List.prefix_rfl) ?_
    intro s t u hstep hprefix
    rcases step_output hstep with hsame | ⟨w, f, a, -, -, -, happ⟩
    · exact hsame ▸ hprefix
    · exact (happ ▸ List.prefix_append _ _ : s.output <+: t.output).trans hprefix
  · intro s t hstep hne
    exact (step_output hstep).resolve_left hne

/-! ### Frames (R27) -/

/-- What an instruction that stores at the address in parameter word `i` leaves unchanged: all but pc, that one cell and, when
it fails, the run state and the record. -/
def StoreFrame (i : Nat) (s t : State) : Prop :=
  t.config = s.config ∧ t.input = s.input ∧ t.output = s.output ∧ t.mem.size = s.mem.size ∧
  (∀ d, s.paramWord i = some d → ∀ x, x ≠ d → t.cell x = s.cell x) ∧
  (s.paramWord i = none → ∀ x, t.cell x = s.cell x) ∧
  ((t.runState = s.runState ∧ t.failKind = s.failKind ∧ t.failPc = s.failPc) ∨
    t = { s with runState := .failed, failKind := t.failKind, failPc := s.pc })

theorem storeFrame_raise (i : Nat) (s : State) (k : FailKind) : StoreFrame i s (s.raise k) :=
  ⟨rfl, rfl, rfl, rfl, fun _ _ _ _ => rfl, fun _ _ => rfl, .inr rfl⟩

theorem storeFrame_write {i : Nat} {s : State} {d : Int} (hd : s.paramWord i = some d) (hv : s.mem.valid d = true)
    (v : Int) (n : Nat) : StoreFrame i s ((s.withMem (s.mem.write d v)).advance n) := by
  refine ⟨rfl, rfl, rfl, rfl, fun e he x hx => ?_, fun hnone => by simp [hd] at hnone, .inl ⟨rfl, rfl, rfl⟩⟩
  obtain rfl : d = e := Option.some.inj (hd.symm.trans he)
  simp [Memory.read?_write hv, hx, State.cell]

theorem arithBody_storeFrame {op : AluOp} {f : Fields} {s t : State} (h : finish s (arithBody op f s) = .next t) :
    StoreFrame 3 s t := by
  rcases finish_eq_next.mp h with hbody | ⟨k, -, rfl⟩
  · obtain ⟨a, b, d, v, -, -, hd, hv, -, rfl⟩ := arithBody_eq_ok.mp hbody
    exact storeFrame_write hd hv v 4
  · exact storeFrame_raise 3 s k

/-- Settles O30: ADD and MULT share one body, whose only store is at the third parameter word. -/
theorem arithmeticFrame : Obligations.ArithmeticFrame := by
  rintro f s t (hadd | hmult)
  · exact arithBody_storeFrame (op := .add) hadd
  · exact arithBody_storeFrame (op := .mult) hmult

/-- Settles O31: INPUT's only store is at its parameter word. -/
theorem inputFrame : Obligations.InputFrame := by
  intro f s t h
  show StoreFrame 1 s t
  rcases finish_eq_next.mp h with hbody | ⟨k, -, rfl⟩
  · obtain ⟨d, hd, hv, rfl⟩ := inputBody_eq_ok.mp hbody
    exact storeFrame_write hd hv s.input 2
  · exact storeFrame_raise 1 s k

/-- Settles O32: OUTPUT appends or fails, HALT writes the run state; neither touches memory. -/
theorem outputAndHaltFrame : Obligations.OutputAndHaltFrame := by
  refine fun f s t => ⟨fun houtput => ?_, fun hhalt => ?_⟩
  · rcases finish_eq_next.mp houtput with hbody | ⟨k, -, rfl⟩
    · obtain ⟨a, -, rfl⟩ := outputBody_eq_ok.mp hbody
      exact ⟨rfl, rfl, rfl, fun _ => rfl, .inl ⟨rfl, rfl, rfl⟩⟩
    · exact ⟨rfl, rfl, rfl, fun _ => rfl, .inr rfl⟩
  · cases hhalt
    exact ⟨rfl, rfl, rfl, rfl, rfl, rfl, rfl, fun _ => rfl⟩

/-! ### What an instruction reads (R22, R31)

An execution chooses an effect from what the instruction reads and applies it to the state. Two states that agree on what is
read therefore get one effect, and noninterference is that the effects commute with a change of what is not read. -/

/-- What an execution does to the state, with the values it computed. -/
inductive Effect where
  | fail (k : FailKind)
  | store (d v : Int) (n : Nat)
  | emit (a : Int)
  | halt

def Effect.apply : Effect → State → State
  | .fail k, s => s.raise k
  | .store d v n, s => (s.withMem (s.mem.write d v)).advance n
  | .emit a, s => (s.emit a).advance 2
  | .halt, s => s.halt

/-- A store's address was checked (R75). -/
def Effect.InMemory (m : Memory) : Effect → Prop
  | .store d _ _ => m.valid d = true
  | _ => True

/-- Two states agree on everything the instruction reads: its operands, the parameters, N and, for INPUT, the latch. -/
structure AgreeFor (i : Instr) (s s' : State) : Prop where
  reads  : readsAgree i s s'
  config : s'.config = s.config
  size   : s'.mem.size = s.mem.size
  latch  : ∀ f, i = .input f → s'.input = s.input

theorem AgreeFor.bodyOf_eq_error {i : Instr} {s s' : State} (h : AgreeFor i s s') {k : FailKind}
    (hk : bodyOf i s = .error k) : bodyOf i s' = .error k := by
  obtain ⟨hreads, hconfig, hsize, -⟩ := h
  have hvalid := Memory.valid_congr hsize
  cases i with
  | add f | mult f =>
    obtain ⟨h1, h2, h3⟩ := hreads
    simpa only [bodyOf, arithBody_eq_error, h1, h2, h3, hvalid, hconfig] using hk
  | input f =>
    have h1 : s'.paramWord 1 = s.paramWord 1 := hreads
    simpa only [bodyOf, inputBody_eq_error, h1, hvalid] using hk
  | output f =>
    have h1 : s'.sourceValue f.m1 1 = s.sourceValue f.m1 1 := hreads
    simpa only [bodyOf, outputBody_eq_error, h1] using hk
  | halt f => cases hk

theorem AgreeFor.bodyOf_eq_ok {i : Instr} {s s' t : State} (h : AgreeFor i s s') (ht : bodyOf i s = .ok t) :
    ∃ e : Effect, e.InMemory s.mem ∧ t = e.apply s ∧ bodyOf i s' = .ok (e.apply s') := by
  obtain ⟨hreads, hconfig, hsize, hlatch⟩ := h
  have hvalid := Memory.valid_congr hsize
  cases i with
  | add f | mult f =>
    obtain ⟨h1, h2, h3⟩ := hreads
    obtain ⟨a, b, d, v, ha, hb, hd, hv, hr, rfl⟩ := arithBody_eq_ok.mp ht
    exact ⟨.store d v 4, hv, rfl, arithBody_eq_ok.mpr
      ⟨a, b, d, v, h1.trans ha, h2.trans hb, h3.trans hd, (hvalid d).trans hv, hconfig ▸ hr, rfl⟩⟩
  | input f =>
    obtain ⟨d, hd, hv, rfl⟩ := inputBody_eq_ok.mp ht
    exact ⟨.store d s.input 2, hv, rfl, inputBody_eq_ok.mpr
      ⟨d, hreads.trans hd, (hvalid d).trans hv, by rw [hlatch f rfl]; rfl⟩⟩
  | output f =>
    obtain ⟨a, ha, rfl⟩ := outputBody_eq_ok.mp ht
    exact ⟨.emit a, trivial, rfl, outputBody_eq_ok.mpr ⟨a, hreads.trans ha, rfl⟩⟩
  | halt f =>
    cases ht
    exact ⟨.halt, trivial, rfl, rfl⟩

/-- States that agree on what an instruction reads get the same effect from it. -/
theorem AgreeFor.exec_eq {i : Instr} {s s' : State} (h : AgreeFor i s s') :
    ∃ e : Effect, e.InMemory s.mem ∧ exec i s = .next (e.apply s) ∧ exec i s' = .next (e.apply s') := by
  simp only [exec_eq_finish, finish_eq_next]
  cases hbody : bodyOf i s with
  | error k => exact ⟨.fail k, trivial, .inr ⟨k, rfl, rfl⟩, .inr ⟨k, h.bodyOf_eq_error hbody, rfl⟩⟩
  | ok t =>
    obtain ⟨e, hmem, rfl, hbody'⟩ := h.bodyOf_eq_ok hbody
    exact ⟨e, hmem, .inl rfl, .inl hbody'⟩

theorem readsAgree_of_mem_pc_eq (i : Instr) {s s' : State} (hmem : s'.mem = s.mem) (hpc : s'.pc = s.pc) :
    readsAgree i s s' := by
  have hcell : s'.cell = s.cell := by funext a; simp only [State.cell, hmem]
  have hop : s'.operandOf = s.operandOf := by funext m raw; simp only [State.operandOf, hcell]
  cases i <;> simp [readsAgree, State.sourceValue, State.paramWord, hcell, hpc, hop]

/-- Settles O33: the one effect stores the same word in both memories, or stores nothing. -/
theorem instructionsReadOnlyTheirOperands : Obligations.InstructionsReadOnlyTheirOperands := by
  intro i s m hsize hreads
  have hagree : AgreeFor i s { s with mem := m } := ⟨hreads, rfl, hsize, fun _ _ => rfl⟩
  obtain ⟨e, hmem, hs, hm⟩ := hagree.exec_eq
  refine ⟨_, (e.apply { s with mem := m }).mem, hs, hm.trans ?_, ?_⟩
  · cases e <;> rfl
  · cases e with
    | fail k | emit a | halt => exact ⟨hsize, fun x => .inl ⟨rfl, rfl⟩⟩
    | store d v n =>
      have hd : s.mem.valid d = true := hmem
      have hd' : m.valid d = true := (Memory.valid_congr hsize d).trans hd
      refine ⟨hsize, fun x => ?_⟩
      by_cases hx : x = d
      · exact .inr (by simp [Effect.apply, Memory.read?_write hd, Memory.read?_write hd', hx])
      · exact .inl (by simp [Effect.apply, Memory.read?_write hd, Memory.read?_write hd', hx, State.cell])

/-- Settles O27: no step writes the latch, and only INPUT's effect depends on it. -/
theorem inputLatchIsConstantAndReadOnlyByInput : Obligations.InputLatchIsConstantAndReadOnlyByInput := by
  refine ⟨fun _ _ _ => rfl, ?_, fun f s t d hexec hd hv => ?_, fun i s t v hi hexec => ?_⟩
  · exact run_induction (P := fun s t => t.input = s.input) (fun _ => rfl)
      fun s t u hstep hinput => hinput.trans (step_input hstep)
  · have hbody : inputBody s = .ok ((s.withMem (s.mem.write d s.input)).advance 2) :=
      inputBody_eq_ok.mpr ⟨d, hd, hv, rfl⟩
    simp only [exec, execInput, hbody, finish, Host.Outcome.next.injEq] at hexec
    simp [← hexec, Memory.read?_write hv]
  · have hagree : AgreeFor i s { s with input := v } :=
      ⟨readsAgree_of_mem_pc_eq i rfl rfl, rfl, rfl, fun f hf => absurd hf (hi f)⟩
    obtain ⟨e, -, hs, hv⟩ := hagree.exec_eq
    obtain rfl : e.apply s = t := by simpa [hs] using hexec
    exact hv.trans (by cases e <;> rfl)

/-- Settles O40: the fetch and every effect but a failure's leave the record alone, and a failure overwrites it. -/
theorem failureRecordIsInvisibleToPrograms : Obligations.FailureRecordIsInvisibleToPrograms := by
  intro s t k p hrun hstep
  have hfetch : fetchInstr { s with failKind := k, failPc := p } = fetchInstr s := rfl
  have hrun' : State.runState { s with failKind := k, failPc := p } = .running := hrun
  rw [step_of_running hrun] at hstep
  rw [step_of_running hrun', hfetch]
  cases hf : fetchInstr s with
  | error j =>
    simp only [hf, Host.Outcome.next.injEq] at hstep
    subst hstep
    exact ⟨fun _ => rfl, fun h => absurd rfl h⟩
  | ok i =>
    have hagree : AgreeFor i s { s with failKind := k, failPc := p } :=
      ⟨readsAgree_of_mem_pc_eq i rfl rfl, rfl, rfl, fun _ _ => rfl⟩
    obtain ⟨e, -, hs, hs'⟩ := hagree.exec_eq
    obtain rfl : e.apply s = t := by simpa [hf, hs] using hstep
    simp only [hs', Host.Outcome.next.injEq]
    cases e with
    | fail j => exact ⟨fun _ => rfl, fun h => absurd rfl h⟩
    | store d v n | emit a => exact ⟨fun h => by simp [Effect.apply, hrun] at h, fun _ => rfl⟩
    | halt => exact ⟨fun h => by simp [Effect.apply] at h, fun _ => rfl⟩

/-! ### Every step keeps the invariant -/

/-- Every word a source gives is one the memory holds. -/
theorem State.Inv.fits_sourceValue {s : State} (h : s.Inv) {m : Mode} {i : Nat} {v : Int}
    (hv : s.sourceValue m i = some v) : s.config.width.fits v = true := by
  obtain ⟨raw, hraw, hop⟩ := Option.bind_eq_some_iff.mp hv
  cases m with
  | position => exact h.memWords raw v hop
  | immediate =>
    obtain rfl : raw = v := Option.some.inj hop
    exact h.memWords _ raw hraw

theorem State.Inv.record_of_not_failed {s : State} (h : s.Inv) (hr : s.runState ≠ .failed) :
    s.failKind = .noFailure ∧ s.failPc = 0 :=
  ⟨not_not.mp (mt h.recordKind.mp hr), by simpa [hr] using h.recordPc⟩

/-- R20 asks of the kind recorded that it is one, and that ArithmeticOverflow occurs only under OVERFLOW = Fault. -/
theorem State.Inv.raise {s : State} (h : s.Inv) {k : FailKind} (hk : k ≠ .noFailure)
    (hover : k = .arithmeticOverflow → s.config.overflow = .fault) : (s.raise k).Inv :=
  { h with
    haltedAtHalt := fun hh => by simp at hh
    recordKind := by simpa using hk
    recordPc := by simp
    overflowKind := hover }

theorem State.Inv.store_advance {s : State} (h : s.Inv) (hrun : s.runState = .running) {d v : Int} {n : Nat}
    (hd : s.mem.valid d = true) (hv : s.config.width.fits v = true) (hn : s.pc + n ≤ s.mem.size + 3) :
    ((s.withMem (s.mem.write d v)).advance n).Inv :=
  { h with
    memForm := Memory.wf_write h.memForm hd v
    memWords := fun a u hu => by
      simp only [State.advance_cell, State.withMem_cell, Memory.read?_write hd] at hu
      split at hu
      · cases hu; exact hv
      · exact h.memWords a u hu
    pcBound := hn
    outputBelowPc := h.outputBelowPc.trans (Nat.le_add_right _ _)
    haltedAtHalt := fun hh => by simp [hrun] at hh
    recordPc := by simpa [hrun] using h.recordPc }

/-- R23: an OUTPUT inside the memory leaves room for its entry, because each earlier one took two words. -/
theorem State.Inv.emit_advance {s : State} (h : s.Inv) (hrun : s.runState = .running) {a : Int}
    (ha : s.config.width.fits a = true) (hpc : s.pc < s.mem.size) : ((s.emit a).advance 2).Inv := by
  have hbelow := h.outputBelowPc
  have hlen : (s.output ++ [a]).length = s.output.length + 1 := List.length_append
  exact { h with
    outputWords := fun v hv => by
      rcases List.mem_append.mp hv with hv | hv
      · exact h.outputWords v hv
      · exact List.mem_singleton.mp hv ▸ ha
    pcBound := show s.pc + 2 ≤ s.mem.size + 3 by omega
    outputBelowPc := show 2 * (s.output ++ [a]).length ≤ s.pc + 2 by omega
    outputBound := show (s.output ++ [a]).length ≤ (s.mem.size + 1) / 2 by omega
    haltedAtHalt := fun hh => by simp [hrun] at hh
    recordPc := by simpa [hrun] using h.recordPc }

theorem State.Inv.halt {s : State} (h : s.Inv) (hrun : s.runState = .running) {f : Fields}
    (hfetch : fetchInstr s = .ok (.halt f)) : s.halt.Inv := by
  obtain ⟨hkind, hpc⟩ := h.record_of_not_failed (by simp [hrun])
  obtain ⟨w, hw, hdec⟩ := fetchInstr_eq_ok.mp hfetch
  exact { h with
    haltedAtHalt := fun _ => ⟨w, f, hw, hdec⟩
    recordKind := by simp [hkind]
    recordPc := by simp [hpc] }

theorem fetchInstr_error_kind {s : State} {k : FailKind} (h : fetchInstr s = .error k) :
    k = .addressOutOfBounds ∨ k = .invalidMode ∨ k = .invalidOpcode := by
  rcases fetchInstr_eq_error.mp h with ⟨-, rfl⟩ | ⟨w, -, hdec⟩
  · exact .inl rfl
  · rcases decode_eq_error.mp hdec with ⟨-, -, rfl⟩ | ⟨-, -, rfl⟩
    · exact .inr (.inl rfl)
    · exact .inr (.inr rfl)

/-- R98: a body fails with AddressOutOfBounds, or with ArithmeticOverflow under OVERFLOW = Fault. -/
theorem bodyOf_error_kind {i : Instr} {s : State} {k : FailKind} (h : bodyOf i s = .error k) :
    k = .addressOutOfBounds ∨ k = .arithmeticOverflow ∧ s.config.overflow = .fault := by
  cases i with
  | add f | mult f =>
    rcases arithBody_eq_error.mp h with ⟨-, rfl⟩ | ⟨a, b, d, -, -, -, -, -, hfault, rfl⟩
    · exact .inl rfl
    · exact .inr ⟨rfl, hfault⟩
  | input f => exact .inl (inputBody_eq_error.mp h).2
  | output f => exact .inl (outputBody_eq_error.mp h).2
  | halt f => cases h

theorem State.Inv.of_bodyOf {i : Instr} {s t : State} (h : s.Inv) (hrun : s.runState = .running)
    (hfetch : fetchInstr s = .ok i) (hbody : bodyOf i s = .ok t) : t.Inv := by
  have hpc := pc_lt_size_of_fetchInstr hfetch
  rcases bodyOf_cases hbody with ⟨d, v, ⟨op, a, b, f, -, -, -, hr⟩, -, hv, rfl⟩ | ⟨f, d, -, -, hv, rfl⟩ |
    ⟨f, a, -, ha, rfl⟩ | ⟨f, rfl, rfl⟩
  · exact h.store_advance hrun hv (fits_arith h.widthAllowed hr) (by omega)
  · exact h.store_advance hrun hv h.inputWord (by omega)
  · exact h.emit_advance hrun (h.fits_sourceValue ha) hpc
  · exact h.halt hrun hfetch

/-- Settles O48: the end keeps the state; a failure writes a kind that can occur; each body keeps the invariant. -/
theorem stepKeepsTheInvariant : Obligations.StepKeepsTheInvariant := by
  intro s t h hstep
  rcases step_cases hstep with ⟨-, rfl⟩ | ⟨hrun, k, rfl, hfetch | ⟨i, -, hbody⟩⟩ | ⟨hrun, i, hfetch, hbody⟩
  · exact h
  · rcases fetchInstr_error_kind hfetch with rfl | rfl | rfl <;> exact h.raise (by decide) (fun hk => nomatch hk)
  · rcases bodyOf_error_kind hbody with rfl | ⟨rfl, hfault⟩
    · exact h.raise (by decide) (fun hk => nomatch hk)
    · exact h.raise (by decide) (fun _ => hfault)
  · exact h.of_bodyOf hrun hfetch hbody

end Sys2Proof.Machine
end

section
/-! SUPPORT. Memory (20_memory.md): MemWrite stores one cell or fails (R34), a failing instruction stores nothing (R76), and a
word stored at the next instruction's address is the next one decoded (R41, R42). -/

namespace Sys2Proof.Machine

/-! ### MemWrite (R34, R76) -/

theorem memRead_congr {s t : State} {a : Int} (h : t.cell a = s.cell a) : memRead t a = memRead s a := by
  have hread : t.mem.read? a = s.mem.read? a := h
  simp only [memRead, hread]

/-- Only a body that failed ends in Failed: one that succeeds keeps the run state or halts. -/
theorem exec_eq_raise_of_failed {i : Instr} {s t : State} (hs : s.runState ≠ .failed) (hexec : exec i s = .next t)
    (ht : t.runState = .failed) : ∃ k, bodyOf i s = .error k ∧ t = s.raise k := by
  rw [exec_eq_finish] at hexec
  refine (finish_eq_next.mp hexec).resolve_left fun hbody => ?_
  rcases bodyOf_halts_or_advances hbody with ⟨f, -, rfl⟩ | ⟨-, hstate, -⟩
  · simp at ht
  · exact hs (hstate.symm.trans ht)

/-- Settles O34: the address check decides between the failure and the one law of memory; a failure writes the record alone. -/
theorem memWriteWritesOneCell : Obligations.MemWriteWritesOneCell := by
  refine fun s a v => ⟨fun hout => ?_, fun h0 h1 => ?_, fun i t hs hexec ht => ?_⟩
  · have hinvalid : s.mem.valid a = false := (Memory.read?_eq_none_iff _ _).mp (State.cell_eq_none_iff.mpr hout)
    exact memWrite_eq_error.mpr ⟨hinvalid, rfl⟩
  · have hvalid : s.mem.valid a = true := (Memory.valid_iff _ _).mpr ⟨h0, h1⟩
    have hcell := Memory.read?_write hvalid v
    refine ⟨s.withMem (s.mem.write a v), memWrite_eq_ok.mpr ⟨hvalid, rfl⟩, memRead_eq_ok.mpr ?_,
      fun x hx => memRead_congr ?_, rfl, rfl⟩
    · simp [hcell]
    · simp [hcell, hx, State.cell]
  · obtain ⟨k, -, rfl⟩ := exec_eq_raise_of_failed hs hexec ht
    rfl

/-! ### Self-modifying code (R41, R42) -/

/-- After a store at the address pc advances to, the fetch reads the stored word. -/
theorem fetchInstr_store_advance {s : State} {v : Int} {n : Nat} {j : Instr}
    (hvalid : s.mem.valid ((s.pc : Int) + n) = true) (hdec : decode s.config.priority v = .ok j) :
    fetchInstr ((s.withMem (s.mem.write ((s.pc : Int) + n) v)).advance n) = .ok j :=
  fetchInstr_eq_ok.mpr ⟨v, by simp [Memory.read?_write hvalid], hdec⟩

/-- An instruction of a running machine whose body stores a decodable word where pc goes next is followed by what that word
encodes, whichever instruction stored it. -/
theorem exec_then_step_of_store {i j : Instr} {s : State} {v : Int} {n : Nat} (hrun : s.runState = .running)
    (hvalid : s.mem.valid ((s.pc : Int) + n) = true) (hdec : decode s.config.priority v = .ok j)
    (hbody : bodyOf i s = .ok ((s.withMem (s.mem.write ((s.pc : Int) + n) v)).advance n)) :
    ∃ t, exec i s = .next t ∧ step t = exec j t := by
  refine ⟨_, (exec_eq_finish i s).trans (finish_eq_next.mpr (.inl hbody)), ?_⟩
  rw [step_of_running (by simpa using hrun), fetchInstr_store_advance hvalid hdec]

/-- Settles O36: each of the three bodies stores the word at the address its pc advances to. -/
theorem writtenWordsAreFetchedNext : Obligations.WrittenWordsAreFetchedNext := by
  intro f s a b j hrun
  have hvalid : ∀ n : Nat, (s.pc : Int) + n < s.mem.size → s.mem.valid ((s.pc : Int) + n) = true :=
    fun n hn => (Memory.valid_iff _ _).mpr ⟨by omega, hn⟩
  refine ⟨fun ha hb hd hsize => ?_, fun hd hsize hdec => ?_⟩
  · have hbody : ∀ op, s.config.width.fits (aluExact op a b) = true → arithBody op f s =
        .ok ((s.withMem (s.mem.write ((s.pc : Int) + 4) (aluExact op a b))).advance 4) := fun op hfits =>
      arithBody_eq_ok.mpr ⟨a, b, _, _, ha, hb, hd, hvalid 4 hsize, arith_of_fits hfits, rfl⟩
    exact ⟨fun hfits hdec => exec_then_step_of_store hrun (hvalid 4 hsize) hdec (hbody .add hfits),
      fun hfits hdec => exec_then_step_of_store hrun (hvalid 4 hsize) hdec (hbody .mult hfits)⟩
  · have hbody : inputBody s = .ok ((s.withMem (s.mem.write ((s.pc : Int) + 2) s.input)).advance 2) :=
      inputBody_eq_ok.mpr ⟨_, hd, hvalid 2 hsize, rfl⟩
    exact exec_then_step_of_store hrun (hvalid 2 hsize) hdec hbody

end Sys2Proof.Machine
end

section
/-! SUPPORT. Encoding (30_encoding.md): an instruction word as the value of its digit fields (R47, R66), decode and encode as
inverses of each other (R62), which words are illegal and how (R55 to R60), what decoding ignores (R51, R56), and the assembly
table of R64 both ways. -/

namespace Sys2Proof.Machine

/-! ### A word and its digit fields (R47, R66) -/

/-- The word five digit fields stand for (R66). -/
def digitsValue (ds : Digits) : Int :=
  ds.opcode + 100 * ds.mode1 + 1000 * ds.mode2 + 10000 * ds.mode3 + 100000 * ds.quotient

/-- The fields are those of some non-negative word. -/
def DigitsInRange (ds : Digits) : Prop :=
  (0 ≤ ds.opcode ∧ ds.opcode < 100) ∧ (0 ≤ ds.mode1 ∧ ds.mode1 < 10) ∧ (0 ≤ ds.mode2 ∧ ds.mode2 < 10) ∧
    (0 ≤ ds.mode3 ∧ ds.mode3 < 10) ∧ 0 ≤ ds.quotient

/-- No digit of a word is lost by splitting it, whatever its sign (R47, R49). -/
theorem digitsValue_splitWord (w : Int) : digitsValue (splitWord w) = w := by
  rcases le_total 0 w with h | h
  · rw [splitWord_of_nonneg h]; simp only [digitsValue]; omega
  · rw [splitWord_of_nonpos h]; simp only [digitsValue]; omega

theorem splitWord_digitsValue {ds : Digits} (h : DigitsInRange ds) : splitWord (digitsValue ds) = ds := by
  obtain ⟨c, a, b, d, q⟩ := ds
  simp only [DigitsInRange] at h
  have hn : 0 ≤ digitsValue ⟨c, a, b, d, q⟩ := by simp only [digitsValue]; omega
  rw [splitWord_of_nonneg hn]
  simp only [digitsValue, Digits.mk.injEq]
  omega

/-- R51: what is added above the ten-thousands digit of a non-negative word reaches the quotient alone. -/
theorem splitWord_add_high {w h : Int} (hw : 0 ≤ w) (hh : 0 ≤ h) :
    splitWord (w + 100000 * h) = { splitWord w with quotient := (splitWord w).quotient + h } := by
  rw [splitWord_of_nonneg hw, splitWord_of_nonneg (by omega)]
  simp only [Digits.mk.injEq]
  omega

/-! ### Decode and encode are inverses (R60, R62, R66) -/

/-- The digit fields of an instruction's word. -/
def digitsOf (i : Instr) : Digits :=
  { opcode := i.opcode, mode1 := i.fields.m1.digit, mode2 := i.fields.m2.digit, mode3 := i.fields.m3.digit,
    quotient := i.fields.high }

theorem encode_eq_digitsValue (i : Instr) : encode i = digitsValue (digitsOf i) := rfl

theorem opcode_range (i : Instr) : 0 < i.opcode ∧ i.opcode < 100 := by cases i <;> simp [Instr.opcode]

theorem digit_range (m : Mode) : 0 ≤ m.digit ∧ m.digit < 2 := by cases m <;> simp [Mode.digit]

theorem digitsInRange_digitsOf (i : Instr) : DigitsInRange (digitsOf i) := by
  have hc := opcode_range i
  have h1 := digit_range i.fields.m1
  have h2 := digit_range i.fields.m2
  have h3 := digit_range i.fields.m3
  simp only [DigitsInRange, digitsOf]
  omega

/-- R59: a word with a legal opcode is positive, because a remainder has the sign of its word. -/
theorem pos_of_opcode_pos {w : Int} (h : 0 < (splitWord w).opcode) : 0 < w := by
  by_contra hw
  rw [splitWord_of_nonpos (by omega)] at h
  simp only at h
  omega

/-- A word decodes to an instruction exactly when its digit fields are the instruction's. -/
theorem decode_eq_ok_iff_splitWord {p : DecodePriority} {w : Int} {i : Instr} :
    decode p w = .ok i ↔ splitWord w = digitsOf i := by
  rw [decode_eq_ok, fieldsOf_eq_some]
  constructor
  · rintro ⟨hc, h1, h2, h3, hq⟩
    have hw : 0 < w := pos_of_opcode_pos (hc ▸ (opcode_range i).1)
    have hn : 0 ≤ (splitWord w).quotient := by
      rw [splitWord_of_nonneg hw.le]; simp only; omega
    have hquot : (splitWord w).quotient = i.fields.high := by omega
    simp only [digitsOf, ← hc, ← h1, ← h2, ← h3, ← hquot]
  · intro h
    simp [h, digitsOf]

/-- R62: decode and encode are inverses of each other, under both priorities. -/
theorem decode_eq_ok_iff_encode {p : DecodePriority} {w : Int} {i : Instr} : decode p w = .ok i ↔ encode i = w := by
  rw [decode_eq_ok_iff_splitWord, encode_eq_digitsValue]
  constructor
  · intro h
    rw [← h, digitsValue_splitWord]
  · rintro rfl
    exact splitWord_digitsValue (digitsInRange_digitsOf i)

@[simp] theorem decode_encode (p : DecodePriority) (i : Instr) : decode p (encode i) = .ok i :=
  decode_eq_ok_iff_encode.mpr rfl

/-- Settles O1: the fields of an instruction's word are the instruction's; being well formed is stated of the same sum. -/
theorem encodedInstructionsDecodeBack : Obligations.EncodedInstructionsDecodeBack :=
  fun i => ⟨fun p => decode_encode p i, fun _ => Iff.rfl⟩

/-- Settles O2: splitting a word loses no digit of it. -/
theorem decodedWordsEncodeBack : Obligations.DecodedWordsEncodeBack :=
  fun _ _ _ h => decode_eq_ok_iff_encode.mp h

/-! ### Illegal words (R55 to R60) -/

theorem fieldsOf_splitWord_eq_none {w : Int} : fieldsOf (splitWord w) = none ↔ ¬ modesLegal w := by
  simp only [fieldsOf_eq_none, splitWord_eq_digits, modesLegal, not_and_or, not_or]

theorem opcodeLegal_splitWord_eq_false {w : Int} : opcodeLegal (splitWord w).opcode = false ↔ ¬ opcodeKnown w := by
  simp only [opcodeLegal, splitWord_eq_digits, opcodeKnown, decide_eq_false_iff_not]

/-- Which words are refused, and by which kind, in the terms of R55, R57 and R58. -/
theorem decode_eq_error_iff_illegal {p : DecodePriority} {w : Int} {k : FailKind} :
    decode p w = .error k ↔
      (¬ modesLegal w ∧ (p = .modeFirst ∨ opcodeKnown w) ∧ k = .invalidMode) ∨
      (¬ opcodeKnown w ∧ (p = .opcodeFirst ∨ modesLegal w) ∧ k = .invalidOpcode) := by
  rw [decode_eq_error, ← Bool.not_eq_false, opcodeLegal_splitWord_eq_false, ne_eq, fieldsOf_splitWord_eq_none, not_not,
    not_not]

/-- R60: a word selects an instruction exactly when nothing about it is illegal. -/
theorem exists_decode_eq_ok_iff_legal {p : DecodePriority} {w : Int} :
    (∃ i, decode p w = .ok i) ↔ modesLegal w ∧ opcodeKnown w := by
  cases hdec : decode p w with
  | ok i =>
    obtain ⟨hc, hf⟩ := decode_eq_ok.mp hdec
    have hmodes : modesLegal w := by
      by_contra h
      simp [fieldsOf_splitWord_eq_none.mpr h] at hf
    have hopcode : opcodeKnown w := by
      rw [splitWord_eq_digits] at hc
      cases i <;> simp_all [opcodeKnown, Instr.opcode]
    exact iff_of_true ⟨i, rfl⟩ ⟨hmodes, hopcode⟩
  | error k =>
    refine iff_of_false (by simp) fun ⟨hmodes, hopcode⟩ => ?_
    rcases decode_eq_error_iff_illegal.mp hdec with ⟨hm, -, -⟩ | ⟨ho, -, -⟩
    · exact hm hmodes
    · exact ho hopcode

/-- Settles O3: the words that are not refused; and the digit fields of one that decodes are its instruction's. -/
theorem wordsSelectInstructionsExactly : Obligations.WordsSelectInstructionsExactly := by
  refine fun p w => ⟨exists_decode_eq_ok_iff_legal, fun i hdec => ?_⟩
  have hdigits := decode_eq_ok_iff_splitWord.mp hdec
  rw [splitWord_eq_digits, digitsOf, Digits.mk.injEq] at hdigits
  obtain ⟨hc, h1, h2, h3, hq⟩ := hdigits
  exact ⟨hc.symm, h1.symm, h2.symm, h3.symm, hq.symm⟩

/-- Settles O4: each clause is a case of the two refusals; the priority decides when both checks fail. -/
theorem illegalWordsReportTheirKind : Obligations.IllegalWordsReportTheirKind := by
  refine fun w => ⟨fun hm ho p => ?_, fun hm ho p => ?_, fun hm ho => ⟨?_, ?_⟩⟩ <;> rw [decode_eq_error_iff_illegal]
  · exact .inr ⟨ho, .inr hm, rfl⟩
  · exact .inl ⟨hm, .inr ho, rfl⟩
  · exact .inl ⟨hm, .inl rfl, rfl⟩
  · exact .inr ⟨ho, .inl rfl, rfl⟩

theorem not_opcodeKnown_of_neg {w : Int} (h : w < 0) : ¬ opcodeKnown w := by
  have := trem_of_nonpos h.le 100
  simp only [opcodeKnown]
  omega

theorem digit_nonpos_of_nonpos {w : Int} (h : w ≤ 0) (k : Nat) : digit k w ≤ 0 := by
  have hdiv : tdiv w (10 ^ k) ≤ 0 := by
    rw [tdiv_of_nonpos h]
    exact neg_nonpos.mpr (Int.ediv_nonneg (by omega) (by positivity))
  rw [digit, trem_of_nonpos hdiv]
  omega

/-- R59: the digits of a negative word are 0 or negative, so 0 is the only legal one. -/
theorem modesLegal_iff_of_neg {w : Int} (h : w < 0) :
    modesLegal w ↔ digit 2 w = 0 ∧ digit 3 w = 0 ∧ digit 4 w = 0 := by
  have hd := digit_nonpos_of_nonpos h.le
  have h2 := hd 2
  have h3 := hd 3
  have h4 := hd 4
  simp only [modesLegal]
  omega

/-- Settles O5: the opcode of a negative word is never legal, so the modes alone decide the kind under ModeFirst. -/
theorem negativeWordsNeverDecode : Obligations.NegativeWordsNeverDecode := by
  intro w hw
  have ho := not_opcodeKnown_of_neg hw
  rw [← modesLegal_iff_of_neg hw]
  refine ⟨?_, fun hm => ?_, fun hm => ?_⟩ <;> rw [decode_eq_error_iff_illegal]
  · exact .inr ⟨ho, .inl rfl, rfl⟩
  · exact .inr ⟨ho, .inr hm, rfl⟩
  · exact .inl ⟨hm, .inl rfl, rfl⟩

/-! ### What is checked and ignored, and what is ignored unchecked (R51, R55, R56) -/

/-- The instruction with n more in its ignored quotient. -/
def addHigh (n : Nat) : Instr → Instr
  | .add f => .add { f with high := f.high + n }
  | .mult f => .mult { f with high := f.high + n }
  | .input f => .input { f with high := f.high + n }
  | .output f => .output { f with high := f.high + n }
  | .halt f => .halt { f with high := f.high + n }

@[simp] theorem addHigh_opcode (n : Nat) (i : Instr) : (addHigh n i).opcode = i.opcode := by cases i <;> rfl

@[simp] theorem addHigh_fields (n : Nat) (i : Instr) :
    (addHigh n i).fields = { i.fields with high := i.fields.high + n } := by cases i <;> rfl

theorem exec_addHigh (n : Nat) (i : Instr) (s : State) : exec (addHigh n i) s = exec i s := by cases i <;> rfl

theorem encode_addHigh (n : Nat) (i : Instr) : encode (addHigh n i) = encode i + 100000 * n := by
  simp only [encode, addHigh_opcode, addHigh_fields]
  omega

/-- Settles O6: the added digits reach the quotient alone, which neither the refusals nor any meaning read. -/
theorem highDigitsAreIgnored : Obligations.HighDigitsAreIgnored := by
  refine fun p w h hw hh => ⟨fun k hk => ?_, fun i hi => ?_⟩
  · simpa only [decode_eq_error, ne_eq, fieldsOf_eq_none, splitWord_add_high hw hh] using hk
  · obtain ⟨n, rfl⟩ := Int.eq_ofNat_of_zero_le hh
    obtain rfl := decode_eq_ok_iff_encode.mp hi
    refine ⟨addHigh n i, ?_, by simp, by simp, by simp, by simp, exec_addHigh n i⟩
    rw [← encode_addHigh, decode_encode]

/-- A word with a legal opcode and an illegal mode digit fails by that digit under both priorities (R55). -/
theorem decode_eq_invalidMode_of_digits {c a b d : Int} (hc : opcodeLegal c = true) (ha : 0 ≤ a ∧ a < 10)
    (hb : 0 ≤ b ∧ b < 10) (hd : 0 ≤ d ∧ d < 10) (hm : 2 ≤ a ∨ 2 ≤ b ∨ 2 ≤ d) (p : DecodePriority) :
    decode p (c + 100 * a + 1000 * b + 10000 * d) = .error .invalidMode := by
  have hrange : DigitsInRange ⟨c, a, b, d, 0⟩ := by
    simp only [opcodeLegal, decide_eq_true_eq] at hc
    simp only [DigitsInRange]
    omega
  have hsplit : splitWord (c + 100 * a + 1000 * b + 10000 * d) = ⟨c, a, b, d, 0⟩ := by
    simpa [digitsValue] using splitWord_digitsValue hrange
  have hmode : fieldsOf ⟨c, a, b, d, 0⟩ = none := fieldsOf_eq_none.mpr (by simp only; omega)
  rw [decode_eq_error, hsplit]
  exact .inl ⟨hmode, .inr hc, rfl⟩

/-- Settles O7: no body reads the mode of its destination; a digit 2 to 9 there is an illegal field of the word. -/
theorem destinationDigitsAreCheckedAndIgnored : Obligations.DestinationDigitsAreCheckedAndIgnored := by
  refine ⟨fun m1 m2 m3 m3' h s => ⟨rfl, rfl, rfl⟩, fun p m m' k hk hk' => ?_⟩
  have hdigit : ∀ m : Mode, 0 ≤ m.digit ∧ m.digit < 10 := fun m => by have := digit_range m; omega
  have hkdigit : 0 ≤ k ∧ k < 10 := by omega
  exact ⟨decode_eq_invalidMode_of_digits rfl (hdigit m) (hdigit m') hkdigit (.inr (.inr hk)) p,
    decode_eq_invalidMode_of_digits rfl (hdigit m) (hdigit m') hkdigit (.inr (.inr hk)) p,
    decode_eq_invalidMode_of_digits rfl hkdigit (hdigit m) (hdigit m') (.inl hk) p⟩

/-! ### The assembly table (R64) -/

/-- Items that hold numbers and no labels assemble to those numbers. -/
theorem assemble_eq_some_of_itemWords {program : List AsmLine} {image : List Int}
    (h : (program.map fun l => itemWords l.item).flatten = image.map .num) : assemble program = some image := by
  rw [assemble, h]
  generalize labelTable 0 program = table
  clear h
  induction image with
  | nil => rfl
  | cons w rest ih => simp [asmValue, ih]

@[simp] theorem sourceMode_asmSourceOf (m : Mode) (raw : Int) : sourceMode (asmSourceOf m raw) = m := by cases m <;> rfl

@[simp] theorem sourceNum_asmSourceOf (m : Mode) (raw : Int) : sourceNum (asmSourceOf m raw) = .num raw := by
  cases m <;> rfl

/-- The head item spells the words it takes: one, and its parameter words. -/
theorem itemWords_disassembleHead (w : Int) (rest : List Int) :
    itemWords (disassembleHead w rest).1 = ((w :: rest).take ((disassembleHead w rest).2 + 1)).map .num := by
  simp only [disassembleHead]
  split
  case h_6 => rfl
  all_goals
    rename_i hdec
    have hw := decode_eq_ok_iff_encode.mp hdec
    split
    · next hf => simp [itemWords, ← hf, hw]
    · rfl

/-- The items of an image spell its words, in order. -/
theorem flatten_itemWords_disassemble (image : List Int) :
    ((disassemble image).map itemWords).flatten = image.map .num := by
  induction hn : image.length using Nat.strong_induction_on generalizing image with
  | _ n ih =>
    cases image with
    | nil => rfl
    | cons w rest =>
      have hrest := ih _ (by subst hn; simp) (rest.drop (disassembleHead w rest).2) rfl
      rw [disassemble_cons, List.map_cons, List.flatten_cons, hrest, itemWords_disassembleHead, ← List.map_append,
        List.take_succ_cons, List.cons_append, List.take_append_drop]

/-- Settles O9: the items' words are the image's, and no item holds a label. -/
theorem disassemblyReassembles : Obligations.DisassemblyReassembles := by
  refine fun image => assemble_eq_some_of_itemWords ?_
  rw [List.map_map]
  exact flatten_itemWords_disassemble image

/-- R64: the word of a form, its named sources' modes its only digits above the opcode. -/
theorem encode_of_asmFields {i : Instr} {m1 m2 : Mode} (h : i.fields = asmFields m1 m2) :
    encode i = i.opcode + 100 * m1.digit + 1000 * m2.digit := by
  simp [encode, h, asmFields, Mode.digit]

theorem assemble_singleton {item : AsmItem} {words : List Int} (h : itemWords item = words.map .num) :
    assemble [⟨[], item⟩] = some words :=
  assemble_eq_some_of_itemWords (by simp [h])

/-- Settles O51: a form's word is the encoding of its instruction, which decodes back; every digit of it is spelled. -/
theorem spellableWordsDisassembleToTheirItems : Obligations.SpellableWordsDisassembleToTheirItems := by
  have hadd : ∀ m1 m2 : Mode, encode (.add (asmFields m1 m2)) = 1 + 100 * m1.digit + 1000 * m2.digit :=
    fun _ _ => encode_of_asmFields rfl
  have hmult : ∀ m1 m2 : Mode, encode (.mult (asmFields m1 m2)) = 2 + 100 * m1.digit + 1000 * m2.digit :=
    fun _ _ => encode_of_asmFields rfl
  have hinput : encode (.input (asmFields .position .position)) = 3 := rfl
  have houtput : ∀ m1 : Mode, encode (.output (asmFields m1 .position)) = 4 + 100 * m1.digit :=
    fun m1 => (encode_of_asmFields rfl).trans (add_zero _)
  have hhalt : encode (.halt (asmFields .position .position)) = 99 := rfl
  refine ⟨fun m1 m2 r1 r2 d => ⟨?_, ?_, ?_, ?_, ?_, ?_⟩, fun m1 m2 r1 r2 d rest => ⟨?_, ?_, ?_, ?_, ?_⟩,
    fun w k rest hk => ?_⟩
  · exact assemble_singleton (by simp [itemWords, hadd])
  · exact assemble_singleton (by simp [itemWords, hmult])
  · exact assemble_singleton (by simp [itemWords, hinput])
  · exact assemble_singleton (by simp [itemWords, houtput])
  · exact assemble_singleton (by simp [itemWords, hhalt])
  · exact assemble_singleton rfl
  · rw [← hadd, disassemble_cons]; simp [disassembleHead, asmFields]
  · rw [← hmult, disassemble_cons]; simp [disassembleHead, asmFields]
  · rw [← hinput, disassemble_cons]; simp [disassembleHead, asmFields]
  · rw [← houtput, disassemble_cons]; simp [disassembleHead, asmFields]
  · rw [← hhalt, disassemble_cons]; simp [disassembleHead, asmFields]
  · rw [disassemble_cons, disassembleHead_of_error hk, List.drop_zero]

end Sys2Proof.Machine
end

section
/-! SUPPORT. The step (40_cycle_and_operands.md): what a fetch that succeeds and one that fails make of the step (R67 to R69),
that a run ends and then stays (R79, R80), source operands (R72), and that a placed word is the next one decoded. -/

namespace Sys2Proof.Machine

/-! ### The fetch decides the step (R67, R68, R69) -/

theorem step_of_fetchInstr_eq_ok {s : State} {i : Instr} (hrun : s.runState = .running) (hfetch : fetchInstr s = .ok i) :
    step s = exec i s := by
  rw [step_of_running hrun, hfetch]

theorem step_of_fetchInstr_eq_error {s : State} {k : FailKind} (hrun : s.runState = .running)
    (hfetch : fetchInstr s = .error k) : step s = .next (s.raise k) := by
  rw [step_of_running hrun, hfetch]

/-- Settles O10: the word at pc is the one the fetch decodes. -/
theorem stepRunsDecodedInstruction : Obligations.StepRunsDecodedInstruction :=
  fun _ w _ hrun hw hdec => step_of_fetchInstr_eq_ok hrun (fetchInstr_eq_ok.mpr ⟨w, hw, hdec⟩)

/-- Settles O11: no cell lies at a pc of at least N, so the fetch fails. -/
theorem fetchOutsideMemoryFails : Obligations.FetchOutsideMemoryFails := by
  intro s hrun hpc
  have hnone : s.cell s.pc = none := State.cell_eq_none_iff.mpr (.inr (by omega))
  exact step_of_fetchInstr_eq_error hrun (fetchInstr_eq_error.mpr (.inl ⟨hnone, rfl⟩))

/-- Settles O12: the decoder's kind is the fetch's, and the failure writes the record and the run state alone. -/
theorem undecodableWordsFailAtOnce : Obligations.UndecodableWordsFailAtOnce :=
  fun _ w _ hrun hw hdec => step_of_fetchInstr_eq_error hrun (fetchInstr_eq_error.mpr (.inr ⟨w, hw, hdec⟩))

/-! ### Source operands (R72) -/

/-- Settles O14: Position reads the cell, and a cell exists exactly from 0 to N − 1. -/
theorem resolveFollowsTheMode : Obligations.ResolveFollowsTheMode := by
  refine fun s raw => ⟨rfl, fun v hv => resolve_eq_ok.mpr hv, fun hin => ?_, fun hout => ?_⟩
  · refine Option.ne_none_iff_exists'.mp fun hnone => ?_
    have hout := State.cell_eq_none_iff.mp hnone
    omega
  · exact resolve_eq_error.mpr ⟨State.cell_eq_none_iff.mpr hout, rfl⟩

/-! ### The end of a run (R79, R80) -/

theorem run_of_over {s : State} (h : s.over) (k : Nat) : Host.Core.run Sys2Proof.core k s = .next s := by
  induction k with
  | zero => rfl
  | succ k ih => rw [run_of_step (step_of_over h), ih]

/-- Settles O13: each step after the end is idle. -/
theorem nothingHappensAfterTheEnd : Obligations.NothingHappensAfterTheEnd :=
  fun _ hover k => run_of_over hover k

theorem State.result_ne_none {s : State} (h : s.over) : s.result ≠ none := by
  cases hr : s.runState with
  | running => exact absurd hr h
  | halted => simp [State.result, hr]
  | failed => simp [State.result, hr]

/-- A step that does not end the run found pc inside memory, and moved it at least two words on. -/
theorem pc_of_step_running {s t : State} (hrun : s.runState = .running) (hstep : step s = .next t)
    (ht : t.runState = .running) : s.pc < s.mem.size ∧ s.pc + 2 ≤ t.pc := by
  obtain ⟨hadvance, -, -, houtside⟩ := pcAdvancesByTheWidth.2 s t hrun hstep
  obtain ⟨w, i, -, -, hpc, hwidth⟩ := hadvance ht
  refine ⟨?_, by omega⟩
  by_contra hsize
  have hfailed := houtside (by omega)
  simp [ht] at hfailed

/-- With `2 * k` words or fewer from pc to the end of memory, at most `k` steps go on; the next one ends the run. -/
theorem exists_run_over_of_size_le (k : Nat) {s : State} (h : s.mem.size ≤ s.pc + 2 * k) :
    ∃ t, Host.Core.run Sys2Proof.core (k + 1) s = .next t ∧ t.over := by
  by_cases hrun : s.runState = .running
  · obtain ⟨u, hu⟩ := exists_step_eq_next s
    rw [run_of_step hu]
    by_cases hrun' : u.runState = .running
    · obtain ⟨hinside, hpc⟩ := pc_of_step_running hrun hu hrun'
      have hsize := (step_config_and_size hu).2
      cases k with
      | zero => omega
      | succ k => exact exists_run_over_of_size_le k (by omega)
    · exact ⟨u, run_of_over hrun' k, hrun'⟩
  · exact ⟨s, run_of_over hrun _, hrun⟩

/-- Settles O43: ⌈N/2⌉ advances of two words pass the end of memory from any pc. -/
theorem everyRunEndsWithinTheBound : Obligations.EveryRunEndsWithinTheBound := by
  intro s
  obtain ⟨t, hrun, hover⟩ := exists_run_over_of_size_le ((s.mem.size + 1) / 2) (s := s) (by omega)
  exact ⟨t, hrun, hover, State.result_ne_none hover⟩

/-! ### Placed words (log 5, log 6) -/

/-- Words placed behind an address leave what it holds. -/
theorem Memory.read?_writeAll_of_lt {m : Memory} {a x : Nat} {words : List Int} (hx : x < a)
    (ha : a + words.length ≤ m.size) : (m.writeAll a words).read? (x : Int) = m.read? (x : Int) := by
  induction words generalizing m a with
  | nil => rfl
  | cons v rest ih =>
    simp only [List.length_cons] at ha
    have hvalid : m.valid (a : Int) = true := (Memory.valid_iff _ _).mpr ⟨by omega, by omega⟩
    have hne : (x : Int) ≠ a := by omega
    rw [Memory.writeAll, ih (by omega) (by simp only [Memory.write_size]; omega), Memory.read?_write hvalid, if_neg hne]

theorem Memory.read?_writeAll_cons {m : Memory} {a : Nat} {v : Int} {rest : List Int}
    (ha : a + (v :: rest).length ≤ m.size) : (m.writeAll a (v :: rest)).read? (a : Int) = some v := by
  simp only [List.length_cons] at ha
  have hvalid : m.valid (a : Int) = true := (Memory.valid_iff _ _).mpr ⟨by omega, by omega⟩
  rw [Memory.writeAll, Memory.read?_writeAll_of_lt (by omega) (by simp only [Memory.write_size]; omega),
    Memory.read?_write hvalid, if_pos rfl]

/-- The fetch reads the first placed word, wrapped to the machine's width. -/
theorem cell_pc_placeWords (s : State) (v : Int) (rest : List Int) :
    (s.placeWords (v :: rest)).cell s.pc = some (wrapTo s.config.width v) :=
  Memory.read?_writeAll_cons (by simp [Memory.grow])

/-- The wrap leaves a word as it is (R8). -/
theorem wrapTo_of_fits {w : WordWidth} {v : Int} (hw : w.allowed = true) (hv : w.fits v = true) : wrapTo w v = v := by
  cases w with
  | unbounded => rfl
  | bits w =>
    have hpos : 1 ≤ w := by simp only [WordWidth.allowed, decide_eq_true_eq] at hw; omega
    exact eq_of_fits_of_dvd_sub hpos (fits_wrapTo hw v) hv (two_pow_dvd_wrapTo_sub w v)

/-- A machine of 64-bit or unbounded words receives the words of the 64-bit layout unwrapped (log 6). -/
theorem wrapTo_signedWord_tableWordBits {width : WordWidth} (h : width = .bits 64 ∨ width = .unbounded) (v : Nat) :
    wrapTo width (signedWord tableWordBits v) = signedWord tableWordBits v := by
  rcases h with rfl | rfl
  · exact wrapTo_of_fits rfl (decide_eq_true (signedWord_range (by decide) v))
  · rfl

/-- A table word decodes to the instruction whose encoding its first memory word is, under either priority. -/
theorem decode_of_decodeTableWord {nbits w : Nat} {i : Instr} (h : decodeTableWord nbits w = some i) (p : DecodePriority) :
    decode p (signedWord tableWordBits (w % 2 ^ nbits)) = .ok i := by
  simp only [decodeTableWord] at h
  split at h
  · next j hdec =>
    cases h
    exact decode_eq_ok_iff_encode.mpr (decode_eq_ok_iff_encode.mp hdec)
  · cases h

/-- Settles O50: the placed word lies at pc unwrapped, and decodes as the table word does. -/
theorem placedTableWordsRunNext : Obligations.PlacedTableWordsRunNext := by
  intro s nbits w i hwidth hdec
  have hcell : (s.withFetchWord nbits w).cell s.pc = some (signedWord tableWordBits (w % 2 ^ nbits)) :=
    (cell_pc_placeWords s _ _).trans (congrArg some (wrapTo_signedWord_tableWordBits hwidth _))
  exact step_of_fetchInstr_eq_ok rfl (fetchInstr_eq_ok.mpr ⟨_, hcell, decode_of_decodeTableWord hdec _⟩)

end Sys2Proof.Machine
end

section
/-! SUPPORT. Arithmetic (41_arithmetic.md): the result rule of R84, the block of R86 against it, and what the one body of ADD
and MULT does once its addresses are good (R81, R83, R84, R88). -/

namespace Sys2Proof.Machine

/-! ### The result rule and the block (R84, R86) -/

theorem arith_of_overflow_fault {cfg : Config} {x : Int} (hx : cfg.width.fits x = false) (hpolicy : cfg.overflow = .fault) :
    arith cfg x = .error .arithmeticOverflow :=
  arith_eq_error.mpr ⟨hx, hpolicy, rfl⟩

theorem arith_of_overflow_wrap {cfg : Config} {x : Int} (hx : cfg.width.fits x = false) (hpolicy : cfg.overflow = .wrap) :
    arith cfg x = .ok (wrapTo cfg.width x) :=
  arith_eq_ok.mpr (.inr ⟨hx, hpolicy, rfl⟩)

theorem exists_bits_of_not_fits {width : WordWidth} {x : Int} (h : width.fits x = false) : ∃ w, width = .bits w := by
  cases width with
  | bits w => exact ⟨w, rfl⟩
  | unbounded => cases h

/-- Settles O20: the four clauses are the rule's cases; every integer fits unbounded words. -/
theorem arithmeticResultRule : Obligations.ArithmeticResultRule := by
  refine fun cfg x => ⟨arith_of_fits, arith_of_overflow_fault, arith_of_overflow_wrap, fun hwidth => arith_of_fits ?_⟩
  rw [hwidth]
  rfl

/-- R86: the rule takes the block's wrapped value when the result fits, being then the result itself, and under Wrap. -/
theorem arith_eq_ok_wrapTo {cfg : Config} {x : Int} (hw : cfg.width.allowed = true)
    (h : cfg.width.fits x = true ∨ cfg.overflow = .wrap) : arith cfg x = .ok (wrapTo cfg.width x) := by
  cases hx : cfg.width.fits x with
  | true => rw [wrapTo_of_fits hw hx, arith_of_fits hx]
  | false => exact arith_of_overflow_wrap hx (h.resolve_left (by simp [hx]))

theorem aluBlock_overflow_eq_true {cfg : Config} {op : AluOp} {a b : Int} :
    (aluBlock cfg op a b).overflow = true ↔ cfg.width.fits (aluExact op a b) = false := by
  simp [aluBlock]

theorem aluBlock_overflow_eq_false {cfg : Config} {op : AluOp} {a b : Int} :
    (aluBlock cfg op a b).overflow = false ↔ cfg.width.fits (aluExact op a b) = true := by
  simp [aluBlock]

/-- Settles O22: the block's value is the wrap of the exact result, which is the result itself when that fits. -/
theorem aluBlockAgreesWithTheEngine : Obligations.AluBlockAgreesWithTheEngine := by
  refine fun cfg op a b hw => ⟨aluBlock_overflow_eq_true, fits_wrapTo hw _, fun htaken => ?_, fun hover hpolicy => ?_⟩
  · exact arith_eq_ok_wrapTo hw (htaken.imp_left aluBlock_overflow_eq_false.mp)
  · exact arith_of_overflow_fault (aluBlock_overflow_eq_true.mp hover) hpolicy

/-! ### ADD and MULT with good addresses (R81, R83, R84, R88) -/

/-- What ADD and MULT need before the result is computed: both sources resolve, and the destination lies in memory (R71). -/
structure GoodAddresses (f : Fields) (s : State) (a b d : Int) : Prop where
  source1 : s.sourceValue f.m1 1 = some a
  source2 : s.sourceValue f.m2 2 = some b
  dest    : s.paramWord 3 = some d
  valid   : s.mem.valid d = true

theorem GoodAddresses.of_bounds {f : Fields} {s : State} {a b d : Int} (ha : s.sourceValue f.m1 1 = some a)
    (hb : s.sourceValue f.m2 2 = some b) (hd : s.paramWord 3 = some d) (h0 : 0 ≤ d) (h1 : d < (s.mem.size : Int)) :
    GoodAddresses f s a b d :=
  ⟨ha, hb, hd, (Memory.valid_iff _ _).mpr ⟨h0, h1⟩⟩

/-- ADD and MULT are the one body, finished, with the operation that computes their result. -/
theorem exec_eq_finish_arithBody {i : Instr} {f : Fields} {a b x : Int}
    (h : i = .add f ∧ x = a + b ∨ i = .mult f ∧ x = a * b) :
    ∃ op, x = aluExact op a b ∧ ∀ s, exec i s = finish s (arithBody op f s) := by
  rcases h with ⟨rfl, rfl⟩ | ⟨rfl, rfl⟩
  · exact ⟨.add, rfl, exec_eq_finish _⟩
  · exact ⟨.mult, rfl, exec_eq_finish _⟩

theorem finish_arithBody_of_arith_ok {op : AluOp} {f : Fields} {s : State} {a b d v : Int} (h : GoodAddresses f s a b d)
    (hv : arith s.config (aluExact op a b) = .ok v) :
    finish s (arithBody op f s) = .next { s with mem := s.mem.write d v, pc := s.pc + 4 } :=
  finish_eq_next.mpr (.inl (arithBody_eq_ok.mpr ⟨a, b, d, v, h.source1, h.source2, h.dest, h.valid, hv, rfl⟩))

theorem finish_arithBody_of_overflow_fault {op : AluOp} {f : Fields} {s : State} {a b d : Int} (h : GoodAddresses f s a b d)
    (hx : s.config.width.fits (aluExact op a b) = false) (hpolicy : s.config.overflow = .fault) :
    finish s (arithBody op f s) = .next (s.raise .arithmeticOverflow) :=
  finish_eq_next.mpr (.inr ⟨_, arithBody_eq_error.mpr
    (.inr ⟨a, b, d, h.source1, h.source2, h.dest, h.valid, hx, hpolicy, rfl⟩), rfl⟩)

/-- A result that fits is stored as it is, and every other cell is kept. -/
theorem finish_arithBody_stores_exact {op : AluOp} {f : Fields} {s : State} {a b d : Int} (h : GoodAddresses f s a b d)
    (hx : s.config.width.fits (aluExact op a b) = true) :
    ∃ t, finish s (arithBody op f s) = .next t ∧ t = { s with mem := s.mem.write d (aluExact op a b), pc := s.pc + 4 } ∧
      t.cell d = some (aluExact op a b) ∧ ∀ x, x ≠ d → t.cell x = s.cell x := by
  refine ⟨_, finish_arithBody_of_arith_ok h (arith_of_fits hx), rfl, ?_, fun x hne => ?_⟩
  · exact (Memory.read?_write h.valid _ d).trans (if_pos rfl)
  · exact (Memory.read?_write h.valid _ x).trans (if_neg hne)

/-- Settles O16: the shared body at addition. -/
theorem addStoresTheSum : Obligations.AddStoresTheSum :=
  fun _ _ _ _ _ ha hb hd h0 h1 hfits =>
    finish_arithBody_stores_exact (op := .add) (.of_bounds ha hb hd h0 h1) hfits

/-- Settles O17: the shared body at multiplication. -/
theorem multStoresTheProduct : Obligations.MultStoresTheProduct :=
  fun _ _ _ _ _ ha hb hd h0 h1 hfits =>
    finish_arithBody_stores_exact (op := .mult) (.of_bounds ha hb hd h0 h1) hfits

/-- Settles O18: the shared body raises the rule's failure, or stores the wrap of R8, congruent to the result modulo 2^W. -/
theorem overflowFollowsThePolicy : Obligations.OverflowFollowsThePolicy := by
  intro i f s a b d x hi hallowed ha hb hd h0 h1 hx
  have hgood : GoodAddresses f s a b d := .of_bounds ha hb hd h0 h1
  obtain ⟨op, rfl, hexec⟩ := exec_eq_finish_arithBody hi
  rw [hexec]
  refine ⟨finish_arithBody_of_overflow_fault hgood hx, fun hpolicy => ?_⟩
  obtain ⟨w, hw⟩ := exists_bits_of_not_fits hx
  have hcong : ((2 ^ w : Nat) : Int) ∣ aluExact op a b - wrapTo s.config.width (aluExact op a b) :=
    hw ▸ dvd_sub_comm.mp (two_pow_dvd_wrapTo_sub w _)
  exact ⟨w, _, hw, fits_wrapTo hallowed _, hcong,
    finish_arithBody_of_arith_ok hgood (arith_of_overflow_wrap hx hpolicy)⟩

end Sys2Proof.Machine
end

section
/-! SUPPORT. Input and output (42_io.md): when a destination is missing or outside memory and when a source does not resolve,
and what INPUT and OUTPUT do in each case (R89 to R92). -/

namespace Sys2Proof.Machine

/-! ### From the body to exec (R76, R100) -/

theorem exec_of_bodyOf_eq_ok {i : Instr} {s t : State} (h : bodyOf i s = .ok t) : exec i s = .next t :=
  (exec_eq_finish i s).trans (finish_eq_next.mpr (.inl h))

theorem exec_of_bodyOf_eq_error {i : Instr} {s : State} {k : FailKind} (h : bodyOf i s = .error k) :
    exec i s = .next (s.raise k) :=
  (exec_eq_finish i s).trans (finish_eq_next.mpr (.inr ⟨k, h, rfl⟩))

/-! ### Bad addresses (R32, R70, R72, R75) -/

theorem Memory.valid_eq_false_iff {m : Memory} {a : Int} : m.valid a = false ↔ a < 0 ∨ (m.size : Int) ≤ a := by
  rw [← Bool.not_eq_true, Memory.valid_iff]
  omega

/-- No parameter word gives a valid destination: it is missing, or it names an address outside memory. -/
theorem State.no_valid_destination_iff {s : State} {i : Nat} :
    (∀ d, s.paramWord i = some d → s.mem.valid d = false) ↔
      s.paramWord i = none ∨ ∃ d, s.paramWord i = some d ∧ (d < 0 ∨ (s.mem.size : Int) ≤ d) := by
  cases s.paramWord i with
  | none => simp
  | some d => simp [Memory.valid_eq_false_iff]

theorem State.operandOf_eq_none_iff {s : State} {m : Mode} {raw : Int} :
    s.operandOf m raw = none ↔ m = .position ∧ (raw < 0 ∨ (s.mem.size : Int) ≤ raw) := by
  cases m with
  | position => simp [State.operandOf, State.cell_eq_none_iff]
  | immediate => simp [State.operandOf]

/-- A source does not resolve: its word is missing, or its mode is Position and its raw value lies outside memory. -/
theorem State.sourceValue_eq_none_iff {s : State} {m : Mode} {i : Nat} :
    s.sourceValue m i = none ↔
      s.paramWord i = none ∨
        (m = .position ∧ ∃ r, s.paramWord i = some r ∧ (r < 0 ∨ (s.mem.size : Int) ≤ r)) := by
  cases hword : s.paramWord i with
  | none => simp [State.sourceValue, hword]
  | some raw => simp [State.sourceValue, hword, State.operandOf_eq_none_iff]

/-! ### INPUT and OUTPUT (R89, R90, R91, R92) -/

/-- Settles O23: the body stores the latch at the checked destination, where the one law of memory gives the reads. -/
theorem inputStoresTheLatch : Obligations.InputStoresTheLatch := by
  intro f s d hd h0 h1
  have hvalid : s.mem.valid d = true := (Memory.valid_iff _ _).mpr ⟨h0, h1⟩
  have hread := Memory.read?_write hvalid s.input
  have hbody : bodyOf (.input f) s = .ok ((s.withMem (s.mem.write d s.input)).advance 2) :=
    inputBody_eq_ok.mpr ⟨d, hd, hvalid, rfl⟩
  exact ⟨_, exec_of_bodyOf_eq_ok hbody, rfl, (hread d).trans (if_pos rfl), fun x hx => (hread x).trans (if_neg hx)⟩

/-- Settles O24: the body emits the operand and goes on. -/
theorem outputAppendsTheOperand : Obligations.OutputAppendsTheOperand := by
  intro f s a ha
  have hbody : bodyOf (.output f) s = .ok ((s.emit a).advance 2) := outputBody_eq_ok.mpr ⟨a, ha, rfl⟩
  exact exec_of_bodyOf_eq_ok hbody

/-- Settles O25: INPUT's body fails without a valid destination, OUTPUT's without a source that resolves. -/
theorem inputAndOutputFailOnBadAddresses : Obligations.InputAndOutputFailOnBadAddresses := by
  refine fun f s => ⟨fun hbad => ?_, fun hbad => ?_⟩
  · have hbody : bodyOf (.input f) s = .error .addressOutOfBounds :=
      inputBody_eq_error.mpr ⟨State.no_valid_destination_iff.mpr hbad, rfl⟩
    exact exec_of_bodyOf_eq_error hbody
  · have hbody : bodyOf (.output f) s = .error .addressOutOfBounds :=
      outputBody_eq_error.mpr ⟨State.sourceValue_eq_none_iff.mpr hbad, rfl⟩
    exact exec_of_bodyOf_eq_error hbody

end Sys2Proof.Machine
end

section
/-! SUPPORT. HALT (43_halt.md): it completes in every state (R94), and what the run it ends has for a result (R95, R121). -/

namespace Sys2Proof.Machine

/-- HALT's body cannot fail, so HALT completes whatever the state. -/
theorem exec_halt (f : Fields) (s : State) : exec (.halt f) s = .next s.halt := exec_of_bodyOf_eq_ok rfl

theorem State.over_halt (s : State) : s.halt.over := by simp [State.over]

theorem State.result_of_halted {s : State} (h : s.runState = .halted) :
    s.result = some (.halted s.mem.toList s.output) := by
  simp [State.result, h]

/-- Settles O26: the completed state differs in its run state alone. -/
theorem haltEndsTheRun : Obligations.HaltEndsTheRun := exec_halt

/-- Settles O41: halting keeps memory and OUT, which are then the result, and a halted run is over. -/
theorem haltedRunsGiveMemoryAndOutputs : Obligations.HaltedRunsGiveMemoryAndOutputs := by
  intro f s
  have hresult : s.halt.result = some (.halted s.mem.toList s.output) := State.result_of_halted s.halt_runState
  exact ⟨s.halt, exec_halt f s, hresult, run_of_over s.over_halt⟩

end Sys2Proof.Machine
end

section
/-! SUPPORT. Failures (60_exceptions.md): a bad address fails ADD and MULT before the result is computed (R99), which body raises
which kind (R98), that a failing step is the raise of a kind at its own pc (R97, R100), and a failed run's result (R102, R103). -/

namespace Sys2Proof.Machine

/-! ### Which instruction raises which kind (R98, R99) -/

/-- Settles O19: the sources and the destination are checked before the result, so a bad one decides the shared body's failure. -/
theorem arithmeticFailsOnBadAddresses : Obligations.ArithmeticFailsOnBadAddresses := by
  intro i f s hi hbad
  have hbody : ∀ op, arithBody op f s = .error .addressOutOfBounds := fun _ =>
    arithBody_eq_error.mpr (.inl ⟨hbad.imp_right (.imp_right State.no_valid_destination_iff.mpr), rfl⟩)
  rcases hi with rfl | rfl
  · exact exec_of_bodyOf_eq_error (hbody .add)
  · exact exec_of_bodyOf_eq_error (hbody .mult)

/-- Only the arithmetic unit reports an overflow: every other body fails on an address or not at all. -/
theorem eq_add_or_mult_of_bodyOf_overflow {i : Instr} {s : State} (h : bodyOf i s = .error .arithmeticOverflow) :
    ∃ f, i = .add f ∨ i = .mult f := by
  cases i with
  | add f => exact ⟨f, .inl rfl⟩
  | mult f => exact ⟨f, .inr rfl⟩
  | input f => exact nomatch (inputBody_eq_error.mp h).2
  | output f => exact nomatch (outputBody_eq_error.mp h).2
  | halt f => cases h

/-- Settles O38: an execution that ends in Failed is the raise of its body's kind, and HALT's body raises none. -/
theorem failureKindsByInstruction : Obligations.FailureKindsByInstruction := by
  intro i s t hs hexec ht
  obtain ⟨k, hbody, rfl⟩ := exec_eq_raise_of_failed hs hexec ht
  constructor
  · rcases bodyOf_error_kind hbody with rfl | ⟨rfl, hfault⟩
    · exact .inl rfl
    · exact .inr ⟨rfl, hfault, eq_add_or_mult_of_bodyOf_overflow hbody⟩
  · rintro f rfl
    cases hbody

/-! ### A failing step (R76, R97, R100) -/

/-- A body that succeeds takes no failure: its execution would be the raise of an error it does not have. -/
theorem not_failed_of_bodyOf_eq_ok {i : Instr} {s t : State} (hs : s.runState ≠ .failed) (h : bodyOf i s = .ok t) :
    t.runState ≠ .failed := by
  intro ht
  obtain ⟨k, hk, -⟩ := exec_eq_raise_of_failed hs (exec_of_bodyOf_eq_ok h) ht
  cases h.symm.trans hk

theorem fetchInstr_ne_error_noFailure (s : State) : fetchInstr s ≠ .error .noFailure := by
  intro h
  rcases fetchInstr_error_kind h with hk | hk | hk <;> cases hk

theorem bodyOf_ne_error_noFailure (i : Instr) (s : State) : bodyOf i s ≠ .error .noFailure := by
  intro h
  rcases bodyOf_error_kind h with hk | ⟨hk, -⟩ <;> cases hk

/-- A step into Failed raises a failure kind, whether the fetch or the body failed. -/
theorem step_eq_raise_of_failed {s t : State} (hrun : s.runState = .running) (hstep : step s = .next t)
    (ht : t.runState = .failed) : ∃ k, k ≠ .noFailure ∧ t = s.raise k := by
  rcases step_cases hstep with ⟨hover, -⟩ | ⟨-, k, rfl, hfetch | ⟨i, -, hbody⟩⟩ | ⟨-, i, -, hbody⟩
  · exact absurd hrun hover
  · exact ⟨k, fun hk => fetchInstr_ne_error_noFailure s (hk ▸ hfetch), rfl⟩
  · exact ⟨k, fun hk => bodyOf_ne_error_noFailure i s (hk ▸ hbody), rfl⟩
  · exact absurd ht (not_failed_of_bodyOf_eq_ok (by simp [hrun]) hbody)

/-- Settles O37: the raise writes the run state and the record, and its kind is none but a failure's. -/
theorem failingStepsRecordKindAndPcOnly : Obligations.FailingStepsRecordKindAndPcOnly := by
  intro s t hrun hstep ht
  obtain ⟨k, hk, rfl⟩ := step_eq_raise_of_failed hrun hstep ht
  exact ⟨hk, rfl⟩

/-! ### The result of a failed run (R102, R103) -/

theorem State.result_of_failed {s : State} (h : s.runState = .failed) : s.result = some (.failed s.failKind s.failPc) := by
  simp [State.result, h]

theorem State.over_of_failed {s : State} (h : s.runState = .failed) : s.over := by simp [State.over, h]

/-- Settles O42: the result is the record, whose pc is the failing step's, and a failed run is over. -/
theorem failedRunsGiveKindAndPc : Obligations.FailedRunsGiveKindAndPc := by
  intro s t hrun hstep ht
  have hpc : t.failPc = s.pc := by
    obtain ⟨k, -, rfl⟩ := step_eq_raise_of_failed hrun hstep ht
    exact s.raise_failPc k
  exact ⟨hpc ▸ State.result_of_failed ht, run_of_over (State.over_of_failed ht)⟩

end Sys2Proof.Machine
end

section
/-! SUPPORT. Launch and hazards (70_reset_and_hazards.md): which launches are admitted (R115, R122), that an admitted one
satisfies the invariant (R17, R114), and that a run never depends on the outputs already emitted (R123). -/

namespace Sys2Proof.Machine

/-! ### Which launches are admitted (R115, R122) -/

theorem launchAdmitted_eq_true_iff {cfg : Config} {image : List Int} {input : Int} :
    launchAdmitted cfg image input = true ↔ cfg.width.allowed = true ∧ cfg.width.admitsLength image.length = true ∧
      (∀ v ∈ image, cfg.width.fits v = true) ∧ cfg.width.fits input = true := by
  simp only [launchAdmitted, Bool.and_eq_true, List.all_eq_true, and_assoc]

theorem launchAdmitted_eq_false_iff {cfg : Config} {image : List Int} {input : Int} :
    launchAdmitted cfg image input = false ↔ cfg.width.allowed = false ∨ cfg.width.admitsLength image.length = false ∨
      (∃ v ∈ image, cfg.width.fits v = false) ∨ cfg.width.fits input = false := by
  rw [← Bool.not_eq_true, launchAdmitted_eq_true_iff]
  simp only [not_and_or, not_forall, Bool.not_eq_true, exists_prop]

theorem hostLaunch_of_running {s : State} (h : s.runState = .running) (cfg : Config) (image : List Int) (input : Int) :
    hostLaunch (some s) cfg image input = .refused .launchWhileRunning := by
  simp [hostLaunch, h]

/-- With no run going on, the launch's own data decide. -/
theorem hostLaunch_of_over {before : Option State} (h : ∀ s, before = some s → s.over) (cfg : Config) (image : List Int)
    (input : Int) : hostLaunch before cfg image input =
      if launchAdmitted cfg image input then .next (State.launch cfg image input) else .refused .launchOutOfRange := by
  have hidle : before.map (fun s => s.runState) ≠ some .running := by
    rw [Ne, Option.map_eq_some_iff]
    rintro ⟨s, hs, hrun⟩
    exact h s hs hrun
  simp only [hostLaunch, hidle, if_false]

/-- Settles O45: a running core refuses; otherwise the four preconditions decide, and each alone can refuse. -/
theorem launchesAreAdmittedOrRefused : Obligations.LaunchesAreAdmittedOrRefused := by
  refine fun before cfg image input => ⟨?_, fun hover => ⟨fun hfit => ?_, fun hunfit => ?_⟩⟩
  · rintro ⟨s, rfl, hrun⟩
    exact hostLaunch_of_running hrun cfg image input
  · simp [hostLaunch_of_over hover, launchAdmitted_eq_true_iff.mpr hfit]
  · simp [hostLaunch_of_over hover, launchAdmitted_eq_false_iff.mpr hunfit]

/-! ### The invariant holds at launch (R17, R114) -/

/-- A loaded memory holds no word but the image's. -/
theorem Memory.mem_of_read?_ofImage {image : List Int} {a v : Int} (h : (Memory.ofImage image).read? a = some v) :
    v ∈ image := by
  obtain ⟨h0, -⟩ := (Memory.valid_iff _ _).mp (Memory.valid_of_read? h)
  lift a to Nat using h0
  rw [Memory.read?_ofImage] at h
  exact List.mem_of_getElem? h

/-- Settles O46: the preconditions give the words and the bounds; the launch sets pc, OUT and the record itself. -/
theorem launchEstablishesTheInvariant : Obligations.LaunchEstablishesTheInvariant := by
  intro cfg image input hadmitted
  obtain ⟨hwidth, hlength, himage, hinput⟩ := launchAdmitted_eq_true_iff.mp hadmitted
  exact {
    widthAllowed := hwidth
    lengthAdmitted := hlength
    memForm := Memory.wf_ofImage image
    memWords := fun _ v hv => himage v (Memory.mem_of_read?_ofImage hv)
    inputWord := hinput
    outputWords := List.forall_mem_nil _
    pcBound := Nat.zero_le _
    outputBelowPc := le_rfl
    outputBound := Nat.zero_le _
    haltedAtHalt := fun h => nomatch h
    recordKind := by simp [State.launch]
    recordPc := rfl
    overflowKind := fun h => nomatch h }

/-- Settles O47: reset is a launch, and its empty image and input 0 are admitted. -/
theorem resetSatisfiesTheInvariant : Obligations.ResetSatisfiesTheInvariant := by
  have hlaunch : State.reset = State.launch Config.specDefault [] 0 := rfl
  have hadmitted : launchAdmitted Config.specDefault [] 0 = true := by decide
  exact ⟨hlaunch ▸ launchEstablishesTheInvariant _ _ _ hadmitted, hlaunch⟩

/-! ### The outputs already emitted (R123)

An effect appends to OUT what it computed, whatever stands there; so does a step, and then a run. -/

/-- The entries an effect appends to OUT. -/
def Effect.emitted : Effect → List Int
  | .emit a => [a]
  | _ => []

theorem Effect.apply_output (e : Effect) (s : State) : (e.apply s).output = s.output ++ e.emitted := by
  cases e with
  | emit a => rfl
  | fail k | store d v n | halt => exact (List.append_nil _).symm

theorem Effect.apply_with_output (e : Effect) (s : State) (o : List Int) :
    e.apply { s with output := o } = { e.apply s with output := o ++ e.emitted } := by
  cases e with
  | emit a => rfl
  | fail k | store d v n | halt => simp only [emitted, List.append_nil]; rfl

/-- A running machine's step applies one effect, the same whatever OUT holds: neither the fetch nor an operand reads OUT. -/
theorem step_effect_with_output {s : State} (hrun : s.runState = .running) (o : List Int) :
    ∃ e : Effect, step s = .next (e.apply s) ∧ step { s with output := o } = .next (e.apply { s with output := o }) := by
  have hrun' : State.runState { s with output := o } = .running := hrun
  have hfetch' : fetchInstr { s with output := o } = fetchInstr s := rfl
  cases hfetch : fetchInstr s with
  | error k =>
    exact ⟨.fail k, step_of_fetchInstr_eq_error hrun hfetch, step_of_fetchInstr_eq_error hrun' (hfetch'.trans hfetch)⟩
  | ok i =>
    have hagree : AgreeFor i s { s with output := o } := ⟨readsAgree_of_mem_pc_eq i rfl rfl, rfl, rfl, fun _ _ => rfl⟩
    obtain ⟨e, -, hs, hs'⟩ := hagree.exec_eq
    exact ⟨e, (step_of_fetchInstr_eq_ok hrun hfetch).trans hs,
      (step_of_fetchInstr_eq_ok hrun' (hfetch'.trans hfetch)).trans hs'⟩

/-- From a state with other outputs a step appends the same entries and does all else the same. -/
theorem step_with_output {s t : State} (hstep : step s = .next t) (o : List Int) :
    ∃ e, t.output = s.output ++ e ∧ step { s with output := o } = .next { t with output := o ++ e } := by
  by_cases hrun : s.runState = .running
  · obtain ⟨e, hs, hs'⟩ := step_effect_with_output hrun o
    obtain rfl : e.apply s = t := by simpa [hs] using hstep
    exact ⟨e.emitted, e.apply_output s, by rw [hs', e.apply_with_output]⟩
  · obtain rfl : s = t := by simpa [step_of_over hrun] using hstep
    exact ⟨[], (List.append_nil _).symm, by rw [List.append_nil]; exact step_of_over hrun⟩

/-- Settles O29, by induction on the number of steps: the run's entries are the first step's and then the rest's. -/
theorem outputsNeverInfluenceTheRun : Obligations.OutputsNeverInfluenceTheRun := by
  intro k
  induction k with
  | zero =>
    intro s t o hrun
    cases hrun
    exact ⟨[], (List.append_nil _).symm, by rw [List.append_nil]; rfl⟩
  | succ k ih =>
    intro s t o hrun
    obtain ⟨u, hu⟩ := exists_step_eq_next s
    rw [run_of_step hu] at hrun
    obtain ⟨e, hout, hstep⟩ := step_with_output hu o
    obtain ⟨e', hout', hrest⟩ := ih u t (o ++ e) hrun
    refine ⟨e ++ e', by rw [hout', hout, List.append_assoc], ?_⟩
    rw [run_of_step hstep, hrest, List.append_assoc]

end Sys2Proof.Machine
end

section
/-! SUPPORT. The worked words of 95_test_vectors.md 2.1: a listed instruction is read off by encoding it, a listed failure by
which of the two checks the word fails. -/

namespace Sys2Proof.Machine

/-- Settles O8: the first six words are the encodings of their instructions (R66); 205 fails both checks, so the priority picks
its kind (R58); and the mode digits of the negative word are all 0, which leaves its opcode to fail (R59). -/
theorem workedWordsDecodeAsListed : Obligations.WorkedWordsDecodeAsListed := by
  have hdecode : ∀ {w : Int} {i : Instr}, encode i = w → decode .modeFirst w = .ok i := decode_eq_ok_iff_encode.mpr
  obtain ⟨-, -, hboth⟩ := illegalWordsReportTheirKind 205
  obtain ⟨hmodeFirst, hopcodeFirst⟩ := hboth (by decide) (by decide)
  obtain ⟨-, hneg, -⟩ := negativeWordsNeverDecode (-1) (by decide)
  exact ⟨hdecode rfl, hdecode rfl, hdecode rfl, hdecode rfl, hdecode rfl, hdecode rfl, hmodeFirst, hopcodeFirst,
    hneg (by decide)⟩

end Sys2Proof.Machine
end
